-- ==== Sys2Proof/Word.lean ====
section
/-! DEFINITION. The words of the block: what the spec treats as bits. -/

namespace Sys2Proof

/-- One cell of the register bank (rule R30), the data field of a command word (rule R112). -/
abbrev Byte := BitVec 8

/-- The 16-bit command word of rule R112: kind in bits 15:12, index in 11:8, data in 7:0. -/
abbrev CommandWord := BitVec 16

/-- The 17-bit noise shift register (rule R43). -/
abbrev LfsrWord := BitVec 17

/-- An IEEE 754 binary64 number by its 64 bits: the executable profile of a sample (rule R15). -/
abbrev Binary64 := BitVec 64

end Sys2Proof
end

