-- ==== Sys2Proof/Syntax.lean ====
section
/-! DEFINITION. The instructions: one constructor per row of spec/opcode_table.json. -/

namespace Sys2Proof

/-- The operations of the opcode table. The operand of a write is the integer `value` of
`writeRegister(index, value)` and the operand of `rd` the integer `index` of
`readRegister(index)` (rules R140 and R175): the typed operations take every integer, a command
word carries a byte or a nibble (rule R116, Sys2Proof/WellFormed.lean). -/
inductive Instr where
  /-- `WR_R0` (R148): voice A fine period. -/
  | wrR0 (value : Int)
  /-- `WR_R1` (R149): voice A coarse period. -/
  | wrR1 (value : Int)
  /-- `WR_R2` (R150): voice B fine period. -/
  | wrR2 (value : Int)
  /-- `WR_R3` (R151): voice B coarse period. -/
  | wrR3 (value : Int)
  /-- `WR_R4` (R152): voice C fine period. -/
  | wrR4 (value : Int)
  /-- `WR_R5` (R153): voice C coarse period. -/
  | wrR5 (value : Int)
  /-- `WR_R6` (R154): noise period. -/
  | wrR6 (value : Int)
  /-- `WR_R7` (R155): mixer. -/
  | wrR7 (value : Int)
  /-- `WR_R8` (R156): voice A amplitude. -/
  | wrR8 (value : Int)
  /-- `WR_R9` (R157): voice B amplitude. -/
  | wrR9 (value : Int)
  /-- `WR_R10` (R158): voice C amplitude. -/
  | wrR10 (value : Int)
  /-- `WR_R11` (R160): envelope fine period. -/
  | wrR11 (value : Int)
  /-- `WR_R12` (R161): envelope coarse period. -/
  | wrR12 (value : Int)
  /-- `WR_R13` (R162): envelope shape. -/
  | wrR13 (value : Int)
  /-- `WR_R14` (R163): stored only. -/
  | wrR14 (value : Int)
  /-- `WR_R15` (R164): stored only. -/
  | wrR15 (value : Int)
  /-- `RESET` (R170). -/
  | reset
  /-- `SAMPLE` (R250): `generateSample()`. -/
  | sample
  /-- `RD` (R175): `readRegister(index)`. -/
  | rd (index : Int)
deriving DecidableEq, Repr

end Sys2Proof
end

