-- ==== Sys2Proof/WellFormed.lean ====
section
/-! DEFINITION. Which instructions a command word can spell (rules R114 and R116). -/

namespace Sys2Proof

/-- The value of a write fits the 8-bit data field of the command word. -/
def valueFits (value : Int) : Bool := decide (0 ≤ value) && decide (value ≤ 255)

/-- The index of a read fits the 4-bit index field of the command word. -/
def indexFits (index : Int) : Bool := decide (0 ≤ index) && decide (index ≤ 15)

/-- `i` has a command word. An instruction that is not well formed is a typed call outside the
encoding (rule R116); its meaning still says what the block answers (rules R141, R142, R175). -/
def Instr.wellFormed (i : Instr) : Bool :=
  match i with
  | .wrR0 value => valueFits value
  | .wrR1 value => valueFits value
  | .wrR2 value => valueFits value
  | .wrR3 value => valueFits value
  | .wrR4 value => valueFits value
  | .wrR5 value => valueFits value
  | .wrR6 value => valueFits value
  | .wrR7 value => valueFits value
  | .wrR8 value => valueFits value
  | .wrR9 value => valueFits value
  | .wrR10 value => valueFits value
  | .wrR11 value => valueFits value
  | .wrR12 value => valueFits value
  | .wrR13 value => valueFits value
  | .wrR14 value => valueFits value
  | .wrR15 value => valueFits value
  | .reset => true
  | .sample => true
  | .rd index => indexFits index

end Sys2Proof
end

