-- ==== Sys2Proof/Decode.lean ====
section
/-! DEFINITION. The command word of 30_encoding.md: decoder, then encoder. -/

namespace Sys2Proof

/-- The verdict `Reserved` of rules R113 and R114, with the reason. -/
inductive Reserved where
  /-- Kinds 4 to 15 spell no operation (R113). -/
  | reservedKind
  /-- A field that the kind does not use is not 0 (R114). -/
  | unusedFieldNonzero
deriving DecidableEq, Repr

/-- `kind = w[15:12]` (R112). -/
def kindField (w : CommandWord) : BitVec 4 := w.extractLsb' 12 4

/-- `index = w[11:8]` (R112). -/
def indexField (w : CommandWord) : BitVec 4 := w.extractLsb' 8 4

/-- `data = w[7:0]` (R112). -/
def dataField (w : CommandWord) : Byte := w.extractLsb' 0 8

/-- The row of `writeRegister(index, value)` for an index of the bank (the table of rule R145); the last
case is index 15. -/
def Instr.ofWrite (index : Fin 16) (value : Int) : Instr :=
  match index.val with
  | 0 => .wrR0 value
  | 1 => .wrR1 value
  | 2 => .wrR2 value
  | 3 => .wrR3 value
  | 4 => .wrR4 value
  | 5 => .wrR5 value
  | 6 => .wrR6 value
  | 7 => .wrR7 value
  | 8 => .wrR8 value
  | 9 => .wrR9 value
  | 10 => .wrR10 value
  | 11 => .wrR11 value
  | 12 => .wrR12 value
  | 13 => .wrR13 value
  | 14 => .wrR14 value
  | _ => .wrR15 value

/-- The decoder, total on the 65536 command words (R112 to R114). -/
def decode (w : CommandWord) : Except Reserved Instr :=
  if kindField w = 0 then
    .ok (Instr.ofWrite (indexField w).toFin (dataField w).toNat)
  else if kindField w = 1 then
    if indexField w = 0 ∧ dataField w = 0 then .ok .reset else .error .unusedFieldNonzero
  else if kindField w = 2 then
    if indexField w = 0 ∧ dataField w = 0 then .ok .sample else .error .unusedFieldNonzero
  else if kindField w = 3 then
    if dataField w = 0 then .ok (.rd (indexField w).toNat) else .error .unusedFieldNonzero
  else
    .error .reservedKind

/-- The word with the given fields (R112). -/
def commandWord (kind index : BitVec 4) (data : Byte) : CommandWord := kind ++ index ++ data

/-- `wr r, v` is `(0 << 12) | (r << 8) | v` (R117). -/
def encodeWrite (index : BitVec 4) (value : Int) : CommandWord :=
  commandWord 0 index (BitVec.ofInt 8 value)

/-- The command word of a well-formed instruction (R113, R117). -/
def encode (i : Instr) : CommandWord :=
  match i with
  | .wrR0 value => encodeWrite 0 value
  | .wrR1 value => encodeWrite 1 value
  | .wrR2 value => encodeWrite 2 value
  | .wrR3 value => encodeWrite 3 value
  | .wrR4 value => encodeWrite 4 value
  | .wrR5 value => encodeWrite 5 value
  | .wrR6 value => encodeWrite 6 value
  | .wrR7 value => encodeWrite 7 value
  | .wrR8 value => encodeWrite 8 value
  | .wrR9 value => encodeWrite 9 value
  | .wrR10 value => encodeWrite 10 value
  | .wrR11 value => encodeWrite 11 value
  | .wrR12 value => encodeWrite 12 value
  | .wrR13 value => encodeWrite 13 value
  | .wrR14 value => encodeWrite 14 value
  | .wrR15 value => encodeWrite 15 value
  | .reset => commandWord 1 0 0
  | .sample => commandWord 2 0 0
  | .rd index => commandWord 3 (BitVec.ofInt 4 index) 0

/-- The command word whose low `nbits` bits are `w`, the bits above being 0 (R115: 16 bits). -/
def tableWord (nbits w : Nat) : CommandWord := BitVec.ofNat 16 (w % 2 ^ nbits)

/-- What the decoder reads from the bits of a row of spec/opcode_table.json.
The table numbers bit 0 as the least significant bit of the one 16-bit word (R13, R112), so the
number is the word. A longer instruction does not exist (R115). -/
def decodeTableWord (nbits w : Nat) : Option Instr :=
  if nbits ≤ 16 then (decode (tableWord nbits w)).toOption else none

end Sys2Proof
end

