-- ==== Sys2Proof/Config.lean ====
section
/-! DEFINITION. The named parameters of rule R11, as types of plain data, and the free values.
The values the spec takes by default stand in Sys2Proof/Machine/Params.lean. -/

namespace Sys2Proof

/-- `WRITE_POLICY` (rules R142 and R143). -/
inductive WritePolicy where
  /-- A value outside 0..255 is an error: the spec's default. -/
  | strict
  /-- Every integer value is accepted and masked. -/
  | lenient
deriving DecidableEq, Repr

/-- `ENV_OUTPUT_RULE` (rule R208): when `env.output` is copied from `env.phase`. -/
inductive EnvOutputRule where
  /-- On every step that began not holding: the spec's default. -/
  | onStep
  /-- On every step after whose policy the envelope is not holding. -/
  | onStepAfterPolicy
  /-- At the end of every tick at which the envelope is not holding. -/
  | everyTick
deriving DecidableEq, Repr

/-- `ENV_INDEX` (rule R232): how the envelope output selects a level.
The parameter is a function from 0..31 to 0..15, held here as its table of 32 values.
Option (b) of decision D11 extends the volume table to 32 entries instead. -/
inductive EnvLevelRule where
  /-- `VOL[f(env.output)]`, the function `f` given by its values. -/
  | index (table : Vector (Fin 16) 32)
  /-- Option (b): `VOL32[env.output]`. -/
  | extended
deriving DecidableEq, Repr

/-- `fexp` of rule R11 in the binary64 profile (rule R239). -/
inductive FexpRule where
  /-- The exact `e^x`, correctly rounded: the spec's default. -/
  | correctlyRounded
  /-- An implementation's own function: `Config.freeFexp`, of which nothing is known. -/
  | parameter
deriving DecidableEq, Repr

/-- The parameters of rule R11, fixed for a whole run.
`fpow2` is read by the volume table only, at the 31 arguments `(i - 15) / 2`, i = 1..31
(16..31 under option (b) only), so it is held as its values there: entry `i - 1` is
`fpow2((i - 15) / 2)`. `Sample` is no field: a sample carries its exact value and its
binary64 value side by side (Sys2Proof/Machine/State.lean). `sampleRate` is a field of State. -/
structure Config where
  writePolicy : WritePolicy
  envOutputRule : EnvOutputRule
  envLevelRule : EnvLevelRule
  fpow2 : Vector Binary64 31
  fexp : FexpRule
deriving DecidableEq, Repr

/-- FREE VALUE (notes/assumptions/4.md). An implementation's `e^x` in binary64: the spec makes its
precision a parameter (table row U6 of 93_implementation_defined.md), so nothing is known of it. -/
opaque Config.freeFexp : Binary64 → Binary64

/-- The binary64 operations that can give a NaN. -/
inductive FloatOperation where
  | add
  | mul
  | div
  | exp
deriving DecidableEq, Repr

/-- FREE VALUE (notes/assumptions/5.md). Which NaN an operation gives for its operands: its bit 0 is the
sign, its bits 63 to 13 the fraction below the quiet bit. -/
opaque Config.freeNan : FloatOperation → Binary64 → Binary64 → BitVec 64

end Sys2Proof
end

