-- ==== Sys2Proof/Machine/Params.lean ====
section
/-! DEFINITION. The values of the parameters of rule R11: the spec's defaults and the other values
it admits. -/

namespace Sys2Proof.Machine

/-- `ENV_INDEX(o) = o >> 1` (R232): the halving default. -/
def halveTable : Vector (Fin 16) 32 :=
  #v[0, 0, 1, 1, 2, 2, 3, 3, 4, 4, 5, 5, 6, 6, 7, 7,
     8, 8, 9, 9, 10, 10, 11, 11, 12, 12, 13, 13, 14, 14, 15, 15]

/-- `ENV_INDEX(o) = min(o, 15)` (R232): the admitted clamp. -/
def clampTable : Vector (Fin 16) 32 :=
  #v[0, 1, 2, 3, 4, 5, 6, 7, 8, 9, 10, 11, 12, 13, 14, 15,
     15, 15, 15, 15, 15, 15, 15, 15, 15, 15, 15, 15, 15, 15, 15, 15]

/-- `2^((i - 15) / 2)` correctly rounded to binary64 (R230, R231): the significand is 1 at an odd `i`
and the square root of 2, `0x1.6a09e667f3bcd`, at an even `i`. -/
def exactPow2 (i : Nat) : Binary64 :=
  BitVec.ofNat 64 ((1015 + (i + 1) / 2) <<< 52 + if i % 2 = 1 then 0 else 0x6a09e667f3bcd)

/-- The values of the exact `fpow2` at the arguments the volume table reads (R231, D14). -/
def exactPow2Table : Vector Binary64 31 :=
  #v[exactPow2 1, exactPow2 2, exactPow2 3, exactPow2 4, exactPow2 5, exactPow2 6, exactPow2 7,
     exactPow2 8, exactPow2 9, exactPow2 10, exactPow2 11, exactPow2 12, exactPow2 13,
     exactPow2 14, exactPow2 15, exactPow2 16, exactPow2 17, exactPow2 18, exactPow2 19,
     exactPow2 20, exactPow2 21, exactPow2 22, exactPow2 23, exactPow2 24, exactPow2 25,
     exactPow2 26, exactPow2 27, exactPow2 28, exactPow2 29, exactPow2 30, exactPow2 31]

/-- The default column of the table of rule R11. -/
def defaultConfig : Config :=
  { writePolicy := .strict, envOutputRule := .onStep, envLevelRule := .index halveTable,
    fpow2 := exactPow2Table, fexp := .correctlyRounded }

end Sys2Proof.Machine
end

