-- ==== Sys2Proof/Machine/State.lean ====
section
/-! DEFINITION. The state of the block (rule R63), what surrounds it in the model (the operations the
host has issued and the result of the last one), the reasons a step can stop, and reset. -/

namespace Sys2Proof.Machine

/-- One voice: a tone counter and its level and enables (rules R33 to R39). -/
structure Voice where
  period : Nat
  counter : Nat
  output : Fin 2
  volume : Fin 16
  envelopeEnabled : Bool
  noiseEnabled : Bool
  toneEnabled : Bool
deriving DecidableEq, Repr

/-- The noise generator (rules R40 to R44). -/
structure Noise where
  period : Nat
  counter : Nat
  output : Fin 2
  lfsr : LfsrWord
deriving DecidableEq, Repr

/-- The envelope generator (rules R45 to R51). `phase` is its value between ticks, 0 to 31 (R48):
the transient -1 and 32 of a tick live inside the tick (Machine/Envelope.lean). -/
structure Envelope where
  period : Nat
  counter : Nat
  continueFlag : Bool
  attack : Bool
  alternate : Bool
  hold : Bool
  phase : Fin 32
  output : Fin 32
  holding : Bool
deriving DecidableEq, Repr

/-- The state of the block itself: exactly the state of rule R63 but for the constant `VOL`
(Machine/Mixer.lean) and the configuration `sampleRate` (a field of `State`). -/
structure Block where
  reg : Vector Byte 16
  voice : Vector Voice 3
  noise : Noise
  env : Envelope
deriving DecidableEq, Repr

/-- A sum of volume levels, exactly: the number `(ones + roots * √2) / 256`.
Every entry of the volume table is a whole number of 1/256 or of `√2 / 256` (R230), so every sum is
of this form, and in one way only. -/
structure Level where
  ones : Nat
  roots : Nat
deriving DecidableEq, Repr

/-- The exact real value of a sample (reference semantics, rule R15), given by the sum of R237.
The reals they stand for are `ExactSample.value` of Sys2Proof/Safety.lean. -/
inductive ExactSample where
  /-- Not clipped: `sum / 3 * 0.3` (R238, R240). -/
  | plain (sum : Level)
  /-- Clipped: `(1 - e^(-(sum / 3 - 1))) * 0.3` (R239, R240). -/
  | clipped (sum : Level)
deriving DecidableEq, Repr

/-- A sample under both numeric formats of rule R11: the exact real, and the binary64 number. -/
structure Sample where
  exact : ExactSample
  binary64 : Binary64
deriving DecidableEq, Repr

/-- The errors of rule R270. An error is a result returned to the caller, with no state change
(R273), so it is a reply of a next state and no `Fault`. -/
inductive Error where
  /-- The index is outside 0..15; records the index (R271). -/
  | outOfRange (index : Int)
  /-- The value is outside 0..255 under the strict policy; records the value (R272). -/
  | invalidValue (value : Int)
deriving DecidableEq, Repr

/-- What an operation returns to the host. -/
inductive Reply where
  /-- Success without a result value (R140, R170, R252). -/
  | done
  /-- The byte `readRegister` returns (R175). -/
  | byte (b : Byte)
  /-- The sample `generateSample` returns (R250). -/
  | sample (x : Sample)
  /-- The samples `processSamples` writes to the buffer, in order (R251). -/
  | samples (xs : List Sample)
  /-- The named error (R270). -/
  | error (e : Error)
deriving DecidableEq, Repr

/-- One operation of the host (rule R8), as a command word of rule R112 or as a typed call, whose
arguments are unbounded integers (R116). -/
inductive HostOp where
  | command (w : CommandWord)
  | writeRegister (index value : Int)
  | readRegister (index : Int)
  | reset
  | generateSample
  /-- `processSamples(buffer, count)`, the buffer given by its length (R251). -/
  | processSamples (bufferLength count : Nat)
  /-- `new(sampleRate)` (R252). -/
  | construct (sampleRate : Nat)
deriving DecidableEq, Repr

/-- What the host asks for next: one operation, or two that overlap, which is outside the block's
contract (rules R90 and R283). -/
inductive Request where
  | issue (op : HostOp)
  | overlapping (first second : HostOp)
deriving DecidableEq, Repr

/-- The whole state: the block, its configuration, and its host interface.
`pending` and `reply` are the model's own (notes/assumptions/1.md): the block has no program
counter, and the host's sequence of operations is the program (R55). -/
structure State where
  /-- The state of rule R63. -/
  block : Block
  /-- `sampleRate` (R54). -/
  sampleRate : Nat
  /-- The parameters of rule R11. -/
  config : Config
  /-- The operations the host has issued and the block has not performed yet, oldest first (R8). -/
  pending : List Request
  /-- What the last operation returned, none before the first. -/
  reply : Option Reply
deriving DecidableEq, Repr

/-- No operation of the block stops the machine: its two errors are results (R270, R276), so there
is no fault. -/
inductive Fault where
deriving DecidableEq, Repr

/-- The operations the model gives no meaning (rule R284). Every refusal is safe: the machine stops
where the spec says that nothing is specified. -/
inductive Refusal where
  /-- Raised by no arm of exec: every instruction of the opcode table has its meaning. -/
  | notModelled (mnemonic : String)
  /-- A command word of a reserved kind or with an unused field not 0, raised by the step that reads
  it (R113, R114). Safe. -/
  | reservedCommand (w : CommandWord)
  /-- `processSamples` with a buffer shorter than `count` (R251, D20). Safe. -/
  | shortBuffer (bufferLength count : Nat)
  /-- `new(0)` (R252, D21). Safe. -/
  | zeroSampleRate
  /-- Two operations at once: undefined, and the host's duty to prevent (R90, R283). Safe. -/
  | overlappingOperations
deriving DecidableEq, Repr

/-- A voice after reset (R170). -/
def Voice.reset : Voice :=
  { period := 1, counter := 0, output := 0, volume := 0,
    envelopeEnabled := false, noiseEnabled := false, toneEnabled := true }

/-- The noise generator after reset (R170). -/
def Noise.reset : Noise :=
  { period := 1, counter := 0, output := 0, lfsr := 1 }

/-- The envelope generator after reset (R170). -/
def Envelope.reset : Envelope :=
  { period := 1, counter := 0, continueFlag := false, attack := false, alternate := false,
    hold := false, phase := 0, output := 15, holding := false }

/-- The block after reset (R170, R290). -/
def Block.reset : Block :=
  { reg := #v[0, 0, 0, 0, 0, 0, 0, 0, 0, 0, 0, 0, 0, 0, 0, 0]
    voice := #v[Voice.reset, Voice.reset, Voice.reset]
    noise := Noise.reset
    env := Envelope.reset }

/-- The machine right after construction and reset, with the spec's default parameters, no
operation issued and none performed. Reset gives `sampleRate` no value (R54): 48000 is a DESIGN
CHOICE (notes/assumptions/2.md). -/
def State.reset : State :=
  { block := Block.reset, sampleRate := 48000, config := defaultConfig, pending := [], reply := none }

end Sys2Proof.Machine
end

