-- ==== Sys2Proof/Machine/Ops.lean ====
section
/-! DEFINITION. The named operations over the register bank and the voices, the return of an
operation, and the raising of an error. -/

namespace Sys2Proof.Machine

/-- `reg[i]` (R14): one cell of the register bank. -/
def Block.readReg (b : Block) (i : Fin 16) : Byte := b.reg.get i

/-- `reg[i] <- v` (R14). -/
def Block.storeReg (b : Block) (i : Fin 16) (v : Byte) : Block :=
  { b with reg := b.reg.set i.val v i.isLt }

/-- `voice[k]` (R14): k = 0, 1, 2 for voices A, B, C. -/
def Block.voiceAt (b : Block) (k : Fin 3) : Voice := b.voice.get k

/-- Replace `voice[k]` by `f` of it. -/
def Block.updateVoice (b : Block) (k : Fin 3) (f : Voice → Voice) : Block :=
  { b with voice := b.voice.set k.val (f (b.voiceAt k)) k.isLt }

/-- The operation completes: the block becomes `b` and the host gets `r`. -/
def State.finish (s : State) (b : Block) (r : Reply) : State :=
  { s with block := b, reply := some r }

/-- `raise e` (R14): the operation ends with the named error and no state change (R273). The only
exceptional outcome the block has: there is no handler and no saved state, and the caller goes on
(R276, R277). -/
def State.raise (s : State) (e : Error) : State :=
  { s with reply := some (.error e) }

/-- The value check of rules R142 and R143. -/
def valueAccepted (policy : WritePolicy) (value : Int) : Bool :=
  match policy with
  | .strict => decide (0 ≤ value) && decide (value ≤ 255)
  | .lenient => true

/-- `value & 0xFF` on the mathematical integer (R143, R144): its two's-complement low byte. -/
def maskByte (value : Int) : Byte := BitVec.ofInt 8 value

/-- `writeRegister(index, value)` at an index of the bank (R140): check the value, store the masked
value, then decode the row of `index`, given as `derive`. -/
def writeCell (index : Fin 16) (value : Int) (derive : Block → Block) (s : State) : State :=
  if valueAccepted s.config.writePolicy value then
    s.finish (derive (s.block.storeReg index (maskByte value))) .done
  else
    s.raise (.invalidValue value)

/-- Error numbers (R274), success being 0. -/
def Reply.code (r : Reply) : Nat :=
  match r with
  | .error (.outOfRange _) => 1
  | .error (.invalidValue _) => 2
  | .done => 0
  | .byte _ => 0
  | .sample _ => 0
  | .samples _ => 0

end Sys2Proof.Machine
end

