-- ==== Sys2Proof/Machine/Envelope.lean ====
section
/-! DEFINITION. The envelope tick (43_envelope.md). -/

namespace Sys2Proof.Machine

/-- `TopPolicy` (R206): clamp to 31, then hold, turn or wrap. -/
def topPolicy (e : Envelope) : Envelope :=
  if !e.continueFlag then { e with phase := 31, holding := true }
  else if e.alternate then { e with phase := 31, attack := false }
  else { e with phase := 0 }

/-- `BottomPolicy` (R207): clamp to 0, then hold, turn or wrap. -/
def bottomPolicy (e : Envelope) : Envelope :=
  if !e.continueFlag then { e with phase := 0, holding := true }
  else if e.alternate then { e with phase := 0, attack := true }
  else { e with phase := 31 }

/-- The phase one position on, a signed integer that may leave 0..31 within the tick (R204, R205). -/
def movedPhase (e : Envelope) : Int :=
  if e.attack then (e.phase.val : Int) + 1 else (e.phase.val : Int) - 1

/-- Move the phase one position and apply the policy at either end (R203 to R207). -/
def movePhase (e : Envelope) : Envelope :=
  if 32 ≤ movedPhase e then topPolicy e
  else if movedPhase e < 0 then bottomPolicy e
  else { e with phase := Fin.ofNat 32 (movedPhase e).toNat }

/-- `env.output <- env.phase` (R208). -/
def copyPhase (e : Envelope) : Envelope := { e with output := e.phase }

/-- A step: a tick whose counter has reached the period (R203), with the output update of the
readings `OnStep` and `OnStepAfterPolicy` (R208). -/
def envelopeStep (rule : EnvOutputRule) (e : Envelope) : Envelope :=
  let moved :=
    if e.holding then e
    else if rule = .onStep then copyPhase (movePhase e)
    else movePhase e
  if rule = .onStepAfterPolicy ∧ moved.holding = false then copyPhase moved else moved

/-- Count, and step when the count reaches the period (R202, R203). -/
def envelopeCount (rule : EnvOutputRule) (e : Envelope) : Envelope :=
  if e.period ≤ e.counter + 1 then envelopeStep rule { e with counter := 0 }
  else { e with counter := e.counter + 1 }

/-- `EnvTick` (R200): the hold gate (R201), the count, and the output update of the reading
`EveryTick` (R208). -/
def envelopeTick (rule : EnvOutputRule) (e : Envelope) : Envelope :=
  if e.continueFlag = false ∧ e.holding = true then e
  else
    let counted := envelopeCount rule e
    if rule = .everyTick ∧ counted.holding = false then copyPhase counted else counted

end Sys2Proof.Machine
end

