-- ==== Sys2Proof/Machine/Arith64.lean ====
section
/-! DEFINITION. IEEE 754 binary64 arithmetic with round-to-nearest-even (the executable profile of
rules R11 and R15, decision D14). A finite number is held as its sign and a whole number of units of
`2^-1074`, the least positive binary64 number, so every exact result is a quotient of natural
numbers, rounded once. -/

namespace Sys2Proof.Machine

/-- A binary64 number taken apart. -/
inductive Number where
  | nan
  | infinite (negative : Bool)
  /-- `± units * 2^-1074`. -/
  | finite (negative : Bool) (units : Nat)
deriving DecidableEq, Repr

/-- The biased exponent field. -/
def exponentField (x : Binary64) : Nat := (x.extractLsb' 52 11).toNat

/-- The fraction field. -/
def fractionField (x : Binary64) : Nat := (x.extractLsb' 0 52).toNat

/-- The number that 64 bits encode. -/
def unpack (x : Binary64) : Number :=
  if exponentField x = 2047 then
    if fractionField x = 0 then .infinite (x.getLsbD 63) else .nan
  else if exponentField x = 0 then
    .finite (x.getLsbD 63) (fractionField x)
  else
    .finite (x.getLsbD 63) ((2 ^ 52 + fractionField x) <<< (exponentField x - 1))

/-- The quotient `num / den` to the nearest integer, a tie to the even one. -/
def nearestEven (num den : Nat) : Nat :=
  let q := num / den
  let twice := 2 * (num % den)
  if twice < den then q
  else if den < twice then q + 1
  else q + q % 2

/-- The magnitude bits of `num / den` units, rounded to nearest even.
The result has 53 significant bits, or is a whole number of units where that is coarser; a carry out
of the significand runs into the exponent field, as it should. Too large a number is infinity. -/
def roundBits (num den : Nat) : Nat :=
  let shift := (num / den).log2 - 52
  min (shift <<< 52 + nearestEven num (den <<< shift)) (2047 <<< 52)

/-- A sign and magnitude bits put together. -/
def packBits (negative : Bool) (magnitude : Nat) : Binary64 :=
  BitVec.ofBool negative ++ BitVec.ofNat 63 magnitude

/-- `± num / den` units, rounded. -/
def packRounded (negative : Bool) (num den : Nat) : Binary64 :=
  packBits negative (roundBits num den)

/-- The infinity of a sign. -/
def packInfinite (negative : Bool) : Binary64 := packBits negative (2047 <<< 52)

/-- A quiet NaN: the exponent and the first fraction bit are all ones, the sign and the other fraction
bits are the free value `Config.freeNan` (notes/assumptions/5.md). The spec does not say which NaN
an invalid operation gives, and none arises in its own profiles. -/
def quietNan (operation : FloatOperation) (x y : Binary64) : Binary64 :=
  0x7FF8000000000000 ||| ((Config.freeNan operation x y &&& 1) <<< 63) |||
    ((Config.freeNan operation x y) >>> 13)

/-- The signed number of units of a finite number. -/
def signedUnits (negative : Bool) (units : Nat) : Int := if negative then -(units : Int) else units

/-- The negation of a number: its sign bit flipped. -/
def negate64 (x : Binary64) : Binary64 := x ^^^ (1#64 <<< 63)

/-- Addition; an exact zero sum is +0 unless both operands are negative. -/
def add64 (x y : Binary64) : Binary64 :=
  match unpack x, unpack y with
  | .nan, _ => quietNan .add x y
  | _, .nan => quietNan .add x y
  | .infinite m, .infinite n => if m = n then packInfinite m else quietNan .add x y
  | .infinite m, .finite _ _ => packInfinite m
  | .finite _ _, .infinite n => packInfinite n
  | .finite m u, .finite n v =>
    let z := signedUnits m u + signedUnits n v
    packRounded (if z = 0 then m && n else decide (z < 0)) z.natAbs 1

/-- Subtraction. -/
def sub64 (x y : Binary64) : Binary64 := add64 x (negate64 y)

/-- Multiplication. -/
def mul64 (x y : Binary64) : Binary64 :=
  match unpack x, unpack y with
  | .nan, _ => quietNan .mul x y
  | _, .nan => quietNan .mul x y
  | .infinite m, .infinite n => packInfinite (m ^^ n)
  | .infinite m, .finite n v => if v = 0 then quietNan .mul x y else packInfinite (m ^^ n)
  | .finite m u, .infinite n => if u = 0 then quietNan .mul x y else packInfinite (m ^^ n)
  | .finite m u, .finite n v => packRounded (m ^^ n) (u * v) (2 ^ 1074)

/-- Division. -/
def div64 (x y : Binary64) : Binary64 :=
  match unpack x, unpack y with
  | .nan, _ => quietNan .div x y
  | _, .nan => quietNan .div x y
  | .infinite _, .infinite _ => quietNan .div x y
  | .infinite m, .finite n _ => packInfinite (m ^^ n)
  | .finite m _, .infinite n => packBits (m ^^ n) 0
  | .finite m u, .finite n v =>
    if v = 0 then if u = 0 then quietNan .div x y else packInfinite (m ^^ n)
    else packRounded (m ^^ n) (u * 2 ^ 1074) v

/-- The comparison `x > y`, false when either is a NaN. -/
def greater64 (x y : Binary64) : Bool :=
  match unpack x, unpack y with
  | .nan, _ => false
  | _, .nan => false
  | .infinite m, .infinite n => !m && n
  | .infinite m, .finite _ _ => !m
  | .finite _ _, .infinite n => n
  | .finite m u, .finite n v => decide (signedUnits n v < signedUnits m u)

/-- The fraction bits of the fixed-point numbers with which `expFixed` computes. -/
def expPrecision : Nat := 256

/-- Partial sums of the series of `e^y`: the terms from `term` on, `term` being number `n`; `y` and
the terms are fixed-point numbers. -/
def expSeries (y : Nat) (fuel : Nat) (n term : Nat) : Nat :=
  match fuel with
  | 0 => term
  | fuel + 1 => term + expSeries y fuel (n + 1) (((term * y) >>> expPrecision) / (n + 1))

/-- A fixed-point number squared `k` times. -/
def squareTimes (k x : Nat) : Nat :=
  match k with
  | 0 => x
  | k + 1 => squareTimes k ((x * x) >>> expPrecision)

/-- `e^(units * 2^-1074)` as a fixed-point number: the series at `1 / 2^16` of the argument, squared
16 times. Its relative error is below `2^-230` for arguments to 746. -/
def expFixed (units : Nat) : Nat :=
  squareTimes 16 (expSeries ((units <<< expPrecision) >>> 1090) 48 0 (1 <<< expPrecision))

/-- `e^x`, rounded to nearest (`fexp` of rule R11 by default). Beyond 746 in magnitude the result
overflows or is below half the least positive number. That 256 bits decide the rounding of every
binary64 argument is PRESUMED (notes/assumptions/4.md). -/
def exactExp (x : Binary64) : Binary64 :=
  match unpack x with
  | .nan => quietNan .exp x x
  | .infinite true => packBits false 0
  | .infinite false => packInfinite false
  | .finite negative units =>
    if 746 <<< 1074 < units then
      if negative then packBits false 0 else packInfinite false
    else if negative then
      packRounded false (1 <<< (1074 + expPrecision)) (expFixed units)
    else
      packRounded false (expFixed units <<< 1074) (1 <<< expPrecision)

end Sys2Proof.Machine
end

