-- ==== Sys2Proof/Machine/Mixer.lean ====
section
/-! DEFINITION. Volume table, gate, sum, soft clip and scale (44_mixer.md), exactly and in binary64
side by side. -/

namespace Sys2Proof.Machine

/-- No level (R237: the sum starts at 0; `VOL[0] = 0`). -/
def Level.zero : Level := { ones := 0, roots := 0 }

/-- The sum of two levels. -/
def Level.add (x y : Level) : Level := { ones := x.ones + y.ones, roots := x.roots + y.roots }

/-- `VOL[i] = 2^((i-17)/2)` for i >= 1, exactly (R230), and its continuation `VOL32` to i = 31 (D11
option b): a power of two over 256 at an odd `i`, a power of two times `√2` over 256 at an even
one. -/
def volumeLevel (i : Fin 32) : Level :=
  if i.val = 0 then Level.zero
  else if i.val % 2 = 1 then { ones := 2 ^ ((i.val - 1) / 2), roots := 0 }
  else { ones := 0, roots := 2 ^ ((i.val - 2) / 2) }

/-- 0.5 in binary64. -/
def half64 : Binary64 := 0x3FE0000000000000

/-- 1 in binary64. -/
def one64 : Binary64 := 0x3FF0000000000000

/-- 3 in binary64. -/
def three64 : Binary64 := 0x4008000000000000

/-- 0.3 rounded to binary64. -/
def threeTenths64 : Binary64 := 0x3FD3333333333333

/-- `VOL[i] = fpow2((i-15)/2) * 0.5` in binary64 (R231). -/
def volume64 (c : Config) (i : Fin 32) : Binary64 :=
  if h : i.val = 0 then 0 else mul64 (c.fpow2[i.val - 1]'(by omega)) half64

/-- `fexp` in binary64 (R11, R239). -/
def fexp64 (c : Config) (x : Binary64) : Binary64 :=
  match c.fexp with
  | .correctlyRounded => exactExp x
  | .parameter => Config.freeFexp x

/-- The gate of a voice: R234, then R235, kept apart as the source asks. -/
def gate (v : Voice) (n : Noise) : Bool :=
  let g := (v.toneEnabled && v.output == 1) || (v.noiseEnabled && n.output == 1)
  if !v.toneEnabled && !v.noiseEnabled then false else g

/-- The level index of the envelope output (R232). -/
def envelopeIndex (c : Config) (output : Fin 32) : Fin 32 :=
  match c.envLevelRule with
  | .index table => (table.get output).castLE (by omega)
  | .extended => output

/-- The level index of a voice (R236). -/
def levelIndex (c : Config) (v : Voice) (e : Envelope) : Fin 32 :=
  if v.envelopeEnabled then envelopeIndex c e.output else v.volume.castLE (by omega)

/-- The level index of voice `k` if its gate is open. -/
def contribution (c : Config) (b : Block) (k : Fin 3) : Option (Fin 32) :=
  if gate (b.voiceAt k) b.noise then some (levelIndex c (b.voiceAt k) b.env) else none

/-- `sum <- sum + level(k)` if the gate is open (R237), exactly. -/
def addVoice (c : Config) (b : Block) (sum : Level) (k : Fin 3) : Level :=
  match contribution c b k with
  | some i => sum.add (volumeLevel i)
  | none => sum

/-- `sum <- sum + level(k)` if the gate is open (R237), in binary64. -/
def addVoice64 (c : Config) (b : Block) (sum : Binary64) (k : Fin 3) : Binary64 :=
  match contribution c b k with
  | some i => add64 sum (volume64 c i)
  | none => sum

/-- The sum over the voices A, B, C (R237), exactly. -/
def voiceSum (c : Config) (b : Block) : Level :=
  addVoice c b (addVoice c b (addVoice c b Level.zero 0) 1) 2

/-- The sum over the voices A, B, C in that order from +0.0 (R237, D15), in binary64. -/
def voiceSum64 (c : Config) (b : Block) : Binary64 :=
  addVoice64 c b (addVoice64 c b (addVoice64 c b 0 0) 1) 2

/-- `sum / 3 > 1`, that is `ones + roots * √2 > 768`, decided on whole numbers. -/
def Level.exceedsThree (x : Level) : Bool :=
  decide (768 < x.ones) || decide ((768 - x.ones) ^ 2 < 2 * x.roots ^ 2)

/-- Normalise, soft clip and scale (R238 to R240), exactly. -/
def exactSample (sum : Level) : ExactSample :=
  if sum.exceedsThree then .clipped sum else .plain sum

/-- The soft clip (R239) in binary64; the comparison is strict. -/
def softClip64 (c : Config) (mixed : Binary64) : Binary64 :=
  if greater64 mixed one64 then sub64 one64 (fexp64 c (negate64 (sub64 mixed one64))) else mixed

/-- Normalise, soft clip and scale (R238 to R240) in binary64. -/
def sample64 (c : Config) (sum : Binary64) : Binary64 :=
  mul64 (softClip64 c (div64 sum three64)) threeTenths64

/-- `Mix()` (R241). -/
def mix (c : Config) (b : Block) : Sample :=
  { exact := exactSample (voiceSum c b), binary64 := sample64 c (voiceSum64 c b) }

end Sys2Proof.Machine
end

