-- ==== Sys2Proof/Machine/Noise.lean ====
section
/-! DEFINITION. The noise tick (42_noise.md). -/

namespace Sys2Proof.Machine

/-- `((lfsr >> 1) | (fb << 16)) & 0x1FFFF` with `fb = lfsr[0] ^ lfsr[3]` (R191). -/
def lfsrNext (l : LfsrWord) : LfsrWord :=
  (l >>> 1) ||| ((BitVec.ofBool (l.getLsbD 0 ^^ l.getLsbD 3)).setWidth 17 <<< 16)

/-- `LfsrStep` (R191): shift, and set the output to the new bit 0. -/
def lfsrStep (n : Noise) : Noise :=
  { n with lfsr := lfsrNext n.lfsr, output := if (lfsrNext n.lfsr).getLsbD 0 then 1 else 0 }

/-- `NoiseTick` (R190). -/
def noiseTick (n : Noise) : Noise :=
  if n.period ≤ n.counter + 1 then
    lfsrStep { n with counter := 0 }
  else
    { n with counter := n.counter + 1 }

end Sys2Proof.Machine
end

