-- ==== Sys2Proof/Machine/Tone.lean ====
section
/-! DEFINITION. The tone tick (41_tone.md). -/

namespace Sys2Proof.Machine

/-- `ToneTick` of one voice (R180): a toggle every `period` ticks; the comparison is `>=`. -/
def toneTick (v : Voice) : Voice :=
  if v.period ≤ v.counter + 1 then
    { v with counter := 0, output := 1 - v.output }
  else
    { v with counter := v.counter + 1 }

end Sys2Proof.Machine
end

