-- ==== Sys2Proof/Machine/Operations.lean ====
section
/-! DEFINITION. The meanings of RESET, SAMPLE and RD, and the two host operations that have no row of
the opcode table: `processSamples` and `new` (45_host_operations.md). -/

namespace Sys2Proof.Machine

/-- The generators advance by one tick: noise, envelope, tones A, B, C (R250). -/
def tick (c : Config) (b : Block) : Block :=
  let b := { b with noise := noiseTick b.noise }
  let b := { b with env := envelopeTick c.envOutputRule b.env }
  ((b.updateVoice 0 toneTick).updateVoice 1 toneTick).updateVoice 2 toneTick

/-- `generateSample()` on the block: one tick, then the mix of the state it left (R233, R250). -/
def generate (c : Config) (b : Block) : Block × Sample :=
  (tick c b, mix c (tick c b))

/-- `count` calls of `generateSample()` and their results in order (R251). -/
def generateMany (c : Config) (count : Nat) (b : Block) : Block × List Sample :=
  match count with
  | 0 => (b, [])
  | n + 1 =>
    let first := generate c b
    let rest := generateMany c n first.1
    (rest.1, first.2 :: rest.2)

/-- `RESET` (R170): the block as after construction; `sampleRate` and the parameters stay (R54). -/
def execReset (s : State) : Host.Outcome State Fault Refusal :=
  .next (s.finish Block.reset .done)

/-- `SAMPLE` (R250): one tick of the whole block, returning the sample. -/
def execSample (s : State) : Host.Outcome State Fault Refusal :=
  .next (s.finish (generate s.config s.block).1 (.sample (generate s.config s.block).2))

/-- `RD` (R175): the byte of the cell, or `OutOfRange`; the block does not change. -/
def execRd (index : Int) (s : State) : Host.Outcome State Fault Refusal :=
  if 0 ≤ index ∧ index ≤ 15 then
    .next (s.finish s.block (.byte (s.block.readReg (Fin.ofNat 16 index.toNat))))
  else
    .next (s.raise (.outOfRange index))

/-- `processSamples(buffer, count)` (R251): the batch form, refused on a short buffer (D20). -/
def processSamples (bufferLength count : Nat) (s : State) : Host.Outcome State Fault Refusal :=
  if bufferLength < count then .refused (.shortBuffer bufferLength count)
  else
    .next (s.finish (generateMany s.config count s.block).1
      (.samples (generateMany s.config count s.block).2))

/-- `new(sampleRate)` (R252): record the rate and reset, refused for 0 (D21). The volume table is a
constant, so building it changes no state (R52). -/
def construct (sampleRate : Nat) (s : State) : Host.Outcome State Fault Refusal :=
  if sampleRate = 0 then .refused .zeroSampleRate
  else .next ({ s with sampleRate := sampleRate }.finish Block.reset .done)

end Sys2Proof.Machine
end

