-- ==== Sys2Proof/Machine/Operands.lean ====
section
/-! DEFINITION. The numeric fields of the registers, composed from the bank (rules R101 to R110,
R147, R154 and R159). Every field is unsigned and zero-extended (R110). -/

namespace Sys2Proof.Machine

/-- `fine = reg[2k][7:0]` (R101). -/
def toneFine (b : Block) (k : Fin 3) : Byte :=
  match k with
  | 0 => b.readReg 0
  | 1 => b.readReg 2
  | 2 => b.readReg 4

/-- `coarse = reg[2k+1][3:0]` (R102). -/
def toneCoarse (b : Block) (k : Fin 3) : BitVec 4 :=
  match k with
  | 0 => (b.readReg 1).extractLsb' 0 4
  | 1 => (b.readReg 3).extractLsb' 0 4
  | 2 => (b.readReg 5).extractLsb' 0 4

/-- `TonePeriod(k) = max(1, (coarse << 8) | fine)` (R147). -/
def tonePeriod (b : Block) (k : Fin 3) : Nat :=
  max 1 (toneCoarse b k ++ toneFine b k).toNat

/-- `NoisePeriod = max(1, reg[6][4:0] * 2)` (R154). -/
def noisePeriod (b : Block) : Nat :=
  max 1 (((b.readReg 6).extractLsb' 0 5).toNat * 2)

/-- `EnvPeriod = max(1, ((reg[12] << 8) | reg[11]) * 2)` (R159). -/
def envPeriod (b : Block) : Nat :=
  max 1 ((b.readReg 12 ++ b.readReg 11).toNat * 2)

/-- `reg[8 + k]` (R105): the amplitude register of voice `k`. -/
def amplitude (b : Block) (k : Fin 3) : Byte :=
  match k with
  | 0 => b.readReg 8
  | 1 => b.readReg 9
  | 2 => b.readReg 10

/-- `volume = reg[8 + k][3:0]` (R105). -/
def directLevel (b : Block) (k : Fin 3) : Fin 16 :=
  ((amplitude b k).extractLsb' 0 4).toFin

end Sys2Proof.Machine
end

