-- ==== Sys2Proof/Machine/Flags.lean ====
section
/-! DEFINITION. The boolean state a register write derives: enables and shape flags (rules R104, R105
and R108). The block has no condition codes (R55). -/

namespace Sys2Proof.Machine

/-- `toneEnabled(k) = (reg[7][k] == 0)` (R104, active-low). -/
def toneEnable (b : Block) (k : Fin 3) : Bool := !(b.readReg 7).getLsbD k.val

/-- `noiseEnabled(k) = (reg[7][3+k] == 0)` (R104, active-low). -/
def noiseEnable (b : Block) (k : Fin 3) : Bool := !(b.readReg 7).getLsbD (3 + k.val)

/-- `envelopeEnabled = (reg[8+k][4] == 1)` (R105). -/
def envelopeEnable (b : Block) (k : Fin 3) : Bool := (amplitude b k).getLsbD 4

/-- Shape bit 3 (R108). -/
def shapeContinue (b : Block) : Bool := (b.readReg 13).getLsbD 3

/-- Shape bit 2 (R108). -/
def shapeAttack (b : Block) : Bool := (b.readReg 13).getLsbD 2

/-- Shape bit 1 (R108). -/
def shapeAlternate (b : Block) : Bool := (b.readReg 13).getLsbD 1

/-- Shape bit 0 (R108). -/
def shapeHold (b : Block) : Bool := (b.readReg 13).getLsbD 0

/-- The decode of a tone period register (R148 to R153): nothing but `voice[k].period` (R145). -/
def deriveTonePeriod (k : Fin 3) (b : Block) : Block :=
  b.updateVoice k fun v => { v with period := tonePeriod b k }

/-- The decode of the noise period register (R154). -/
def deriveNoisePeriod (b : Block) : Block :=
  { b with noise := { b.noise with period := noisePeriod b } }

/-- The two enables of voice `k` from the mixer register (R155). -/
def deriveEnables (k : Fin 3) (b : Block) : Block :=
  b.updateVoice k fun v => { v with toneEnabled := toneEnable b k, noiseEnabled := noiseEnable b k }

/-- The decode of the mixer register: for k in 0, 1, 2 (R155). -/
def deriveMixer (b : Block) : Block :=
  deriveEnables 2 (deriveEnables 1 (deriveEnables 0 b))

/-- The decode of an amplitude register (R156 to R158). -/
def deriveAmplitude (k : Fin 3) (b : Block) : Block :=
  b.updateVoice k fun v =>
    { v with volume := directLevel b k, envelopeEnabled := envelopeEnable b k }

/-- The decode of an envelope period register (R160, R161). -/
def deriveEnvPeriod (b : Block) : Block :=
  { b with env := { b.env with period := envPeriod b } }

/-- The decode of the shape register: flags, and the restart of the envelope (R162, R210). The
output is 15 for a decay shape, not a copy of the phase (90_conflicts.md C1). -/
def deriveShape (b : Block) : Block :=
  { b with env := { b.env with
      continueFlag := shapeContinue b
      attack := shapeAttack b
      alternate := shapeAlternate b
      hold := shapeHold b
      counter := 0
      phase := 0
      holding := false
      output := if shapeAttack b then 0 else 15 } }

/-- Registers 14 and 15: no derived state (R163, R164). -/
def deriveNothing (b : Block) : Block := b

end Sys2Proof.Machine
end

