-- ==== Sys2Proof/Machine/RegisterWrites.lean ====
section
/-! DEFINITION. The meanings of the sixteen register writes (40_register_interface.md section 3): the
common part of rule R140 (`writeCell`) with the decode of the row (R145). A value outside 0..255
ends in the error `InvalidValue` under the strict policy (R142). -/

namespace Sys2Proof.Machine

/-- `WR_R0` (R148): voice A fine period. -/
def execWrR0 (value : Int) (s : State) : Host.Outcome State Fault Refusal :=
  .next (writeCell 0 value (deriveTonePeriod 0) s)

/-- `WR_R1` (R149): voice A coarse period. -/
def execWrR1 (value : Int) (s : State) : Host.Outcome State Fault Refusal :=
  .next (writeCell 1 value (deriveTonePeriod 0) s)

/-- `WR_R2` (R150): voice B fine period. -/
def execWrR2 (value : Int) (s : State) : Host.Outcome State Fault Refusal :=
  .next (writeCell 2 value (deriveTonePeriod 1) s)

/-- `WR_R3` (R151): voice B coarse period. -/
def execWrR3 (value : Int) (s : State) : Host.Outcome State Fault Refusal :=
  .next (writeCell 3 value (deriveTonePeriod 1) s)

/-- `WR_R4` (R152): voice C fine period. -/
def execWrR4 (value : Int) (s : State) : Host.Outcome State Fault Refusal :=
  .next (writeCell 4 value (deriveTonePeriod 2) s)

/-- `WR_R5` (R153): voice C coarse period. -/
def execWrR5 (value : Int) (s : State) : Host.Outcome State Fault Refusal :=
  .next (writeCell 5 value (deriveTonePeriod 2) s)

/-- `WR_R6` (R154): noise period. -/
def execWrR6 (value : Int) (s : State) : Host.Outcome State Fault Refusal :=
  .next (writeCell 6 value deriveNoisePeriod s)

/-- `WR_R7` (R155): mixer. -/
def execWrR7 (value : Int) (s : State) : Host.Outcome State Fault Refusal :=
  .next (writeCell 7 value deriveMixer s)

/-- `WR_R8` (R156): voice A amplitude. -/
def execWrR8 (value : Int) (s : State) : Host.Outcome State Fault Refusal :=
  .next (writeCell 8 value (deriveAmplitude 0) s)

/-- `WR_R9` (R157): voice B amplitude. -/
def execWrR9 (value : Int) (s : State) : Host.Outcome State Fault Refusal :=
  .next (writeCell 9 value (deriveAmplitude 1) s)

/-- `WR_R10` (R158): voice C amplitude. -/
def execWrR10 (value : Int) (s : State) : Host.Outcome State Fault Refusal :=
  .next (writeCell 10 value (deriveAmplitude 2) s)

/-- `WR_R11` (R160): envelope fine period. -/
def execWrR11 (value : Int) (s : State) : Host.Outcome State Fault Refusal :=
  .next (writeCell 11 value deriveEnvPeriod s)

/-- `WR_R12` (R161): envelope coarse period. -/
def execWrR12 (value : Int) (s : State) : Host.Outcome State Fault Refusal :=
  .next (writeCell 12 value deriveEnvPeriod s)

/-- `WR_R13` (R162): envelope shape, which restarts the envelope. -/
def execWrR13 (value : Int) (s : State) : Host.Outcome State Fault Refusal :=
  .next (writeCell 13 value deriveShape s)

/-- `WR_R14` (R163): stored only. -/
def execWrR14 (value : Int) (s : State) : Host.Outcome State Fault Refusal :=
  .next (writeCell 14 value deriveNothing s)

/-- `WR_R15` (R164): stored only. -/
def execWrR15 (value : Int) (s : State) : Host.Outcome State Fault Refusal :=
  .next (writeCell 15 value deriveNothing s)

end Sys2Proof.Machine
end

