-- ==== Sys2Proof/Machine/Dispatch.lean ====
section
/-! DEFINITION. One arm per row of spec/opcode_table.json. -/

namespace Sys2Proof.Machine

def exec (i : Instr) (s : State) : Host.Outcome State Fault Refusal :=
  match i with
  | .wrR0 value => Sys2Proof.Machine.execWrR0 value s
  | .wrR1 value => Sys2Proof.Machine.execWrR1 value s
  | .wrR2 value => Sys2Proof.Machine.execWrR2 value s
  | .wrR3 value => Sys2Proof.Machine.execWrR3 value s
  | .wrR4 value => Sys2Proof.Machine.execWrR4 value s
  | .wrR5 value => Sys2Proof.Machine.execWrR5 value s
  | .wrR6 value => Sys2Proof.Machine.execWrR6 value s
  | .wrR7 value => Sys2Proof.Machine.execWrR7 value s
  | .wrR8 value => Sys2Proof.Machine.execWrR8 value s
  | .wrR9 value => Sys2Proof.Machine.execWrR9 value s
  | .wrR10 value => Sys2Proof.Machine.execWrR10 value s
  | .wrR11 value => Sys2Proof.Machine.execWrR11 value s
  | .wrR12 value => Sys2Proof.Machine.execWrR12 value s
  | .wrR13 value => Sys2Proof.Machine.execWrR13 value s
  | .wrR14 value => Sys2Proof.Machine.execWrR14 value s
  | .wrR15 value => Sys2Proof.Machine.execWrR15 value s
  | .reset => Sys2Proof.Machine.execReset s
  | .sample => Sys2Proof.Machine.execSample s
  | .rd index => Sys2Proof.Machine.execRd index s

end Sys2Proof.Machine
end

