-- ==== Sys2Proof/Machine/Calls.lean ====
section
/-! DEFINITION. What one request of the host does (rules R8, R116 and R284): a command word is decoded, a
typed call goes to the row of its operation. Also the fetch that Machine/Step.lean calls. -/

namespace Sys2Proof.Machine

/-- `writeRegister(index, value)` with unbounded integers: the index check comes first (R141, R275),
then the row of the index. -/
def callWrite (index value : Int) (s : State) : Host.Outcome State Fault Refusal :=
  if 0 ≤ index ∧ index ≤ 15 then exec (Instr.ofWrite (Fin.ofNat 16 index.toNat) value) s
  else .next (s.raise (.outOfRange index))

/-- A command word: its instruction, or a refusal if it spells none (R113, R114). -/
def runCommand (w : CommandWord) (s : State) : Host.Outcome State Fault Refusal :=
  match decode w with
  | .ok i => exec i s
  | .error _ => .refused (.reservedCommand w)

/-- One operation of the host (R8). -/
def perform (op : HostOp) (s : State) : Host.Outcome State Fault Refusal :=
  match op with
  | .command w => runCommand w s
  | .writeRegister index value => callWrite index value s
  | .readRegister index => exec (.rd index) s
  | .reset => exec .reset s
  | .generateSample => exec .sample s
  | .processSamples bufferLength count => processSamples bufferLength count s
  | .construct sampleRate => construct sampleRate s

/-- One request: an operation, or an overlap, which has no meaning (R90, R284). -/
def serve (r : Request) (s : State) : Host.Outcome State Fault Refusal :=
  match r with
  | .issue op => perform op s
  | .overlapping _ _ => .refused .overlappingOperations

/-- Serve the oldest request; with none the block holds its state unchanged (R285). -/
def serveNext (s : State) : Host.Outcome State Fault Refusal :=
  match s.pending with
  | [] => .next s
  | r :: rest => serve r { s with pending := rest }

/-- Put a command word before everything the host has issued. -/
def pushCommand (w : CommandWord) (s : State) : State :=
  { s with pending := .issue (.command w) :: s.pending }

end Sys2Proof.Machine
end

