-- ==== Sys2Proof/Machine/Step.lean ====
section
/-! DEFINITION. One step of the machine: one operation of the host (rules R8 and R87). -/

namespace Sys2Proof.Machine

/-- The block performs the oldest operation the host has issued, whole (R87), and nothing if there
is none (R285). -/
def step (s : State) : Host.Outcome State Fault Refusal := serveNext s

/-- `s` with the command word of an opcode-table row as the next operation to be performed. A program
is a sequence of operations issued by the host, never loaded by the block (R55,
notes/assumptions/1.md). -/
def State.withFetchWord (s : State) (nbits w : Nat) : State := pushCommand (tableWord nbits w) s

end Sys2Proof.Machine
end

