-- ==== Sys2Proof/Machine/Assembler.lean ====
section
/-! DEFINITION. The assembly notation and the pseudo-operations of rules R117 and R118: a program text
to the host's operations. The notation is the spec's own and adds no behaviour (D17). -/

namespace Sys2Proof.Machine

/-- One line of a program (R117, R118). -/
inductive AsmLine where
  /-- `wr <reg>, <value>` -/
  | wr (index : BitVec 4) (value : Byte)
  /-- `reset` -/
  | reset
  /-- `sample` -/
  | sample
  /-- `rd <reg>` -/
  | rd (index : BitVec 4)
  /-- `samples N` -/
  | samples (count : Nat)
  /-- `new SR` -/
  | construct (sampleRate : Nat)
  /-- `tone <k>, P` with 0 <= P <= 4095 -/
  | tone (k : Fin 3) (period : BitVec 12)
  /-- `envper P` with 0 <= P <= 65535 -/
  | envper (period : BitVec 16)
deriving DecidableEq, Repr

/-- The index of the fine register of voice `k`: `2k` (R118). -/
def fineIndex (k : Fin 3) : BitVec 4 := BitVec.ofNat 4 (2 * k.val)

/-- The index of the coarse register of voice `k`: `2k + 1` (R118). -/
def coarseIndex (k : Fin 3) : BitVec 4 := BitVec.ofNat 4 (2 * k.val + 1)

/-- The operations a line stands for (R117, R118). `new SR` is the host's `new`, which records the
rate and resets. -/
def AsmLine.expand (line : AsmLine) : List HostOp :=
  match line with
  | .wr index value => [.command (commandWord 0 index value)]
  | .reset => [.command (commandWord 1 0 0)]
  | .sample => [.command (commandWord 2 0 0)]
  | .rd index => [.command (commandWord 3 index 0)]
  | .samples count => List.replicate count (.command (commandWord 2 0 0))
  | .construct sampleRate => [.construct sampleRate]
  | .tone k period =>
    [.command (commandWord 0 (fineIndex k) (period.extractLsb' 0 8)),
     .command (commandWord 0 (coarseIndex k) ((period.extractLsb' 8 4).setWidth 8))]
  | .envper period =>
    [.command (commandWord 0 11 (period.extractLsb' 0 8)),
     .command (commandWord 0 12 (period.extractLsb' 8 8))]

/-- The value of a digit character, of 16 at most. That hexadecimal digits may be of either case is a
DESIGN CHOICE (notes/assumptions/12.md). -/
def digitValue (c : Char) : Nat :=
  if '0' ≤ c ∧ c ≤ '9' then c.toNat - '0'.toNat
  else if 'a' ≤ c ∧ c ≤ 'f' then c.toNat - 'a'.toNat + 10
  else if 'A' ≤ c ∧ c ≤ 'F' then c.toNat - 'A'.toNat + 10
  else 16

/-- The number written by digits of a base, `acc` being what stands before them. -/
def readDigits (base acc : Nat) (cs : List Char) : Option Nat :=
  match cs with
  | [] => some acc
  | c :: rest =>
    if digitValue c < base then readDigits base (base * acc + digitValue c) rest else none

/-- A decimal number, or a hexadecimal one after `0x`: R117 says so of `<value>`. That every other number
of the notation, a register number and the `N`, `SR` and `P` of R118, may be written in both forms,
and that leading zeros are allowed, is a DESIGN CHOICE (notes/assumptions/12.md). -/
def readNumber (cs : List Char) : Option Nat :=
  match cs with
  | [] => none
  | '0' :: 'x' :: c :: rest => readDigits 16 0 (c :: rest)
  | c :: rest => readDigits 10 0 (c :: rest)

/-- A number below a bound. -/
def readBelow (bound : Nat) (cs : List Char) : Option Nat :=
  (readNumber cs).filter (· < bound)

/-- The second names of the registers in the table of R100, r0 first. -/
def registerNames : List (List Char) :=
  ["AFINE".toList, "ACOARSE".toList, "BFINE".toList, "BCOARSE".toList, "CFINE".toList,
   "CCOARSE".toList, "NOISE".toList, "MIXER".toList, "AAMP".toList, "BAMP".toList, "CAMP".toList,
   "EFINE".toList, "ECOARSE".toList, "SHAPE".toList, "IOA".toList, "IOB".toList]

/-- `<reg>`: `r0` to `r15`, a name of the table of R100, or a number 0 to 15 (R117). DESIGN CHOICE
(notes/assumptions/12.md): the digits after `r` are decimal and may have leading zeros, so `r007` is
`r7`, and a bare number may be decimal or hexadecimal. -/
def readRegisterName (cs : List Char) : Option (BitVec 4) :=
  match registerNames.findIdx? (· = cs) with
  | some n => some (BitVec.ofNat 4 n)
  | none =>
    match cs with
    | 'r' :: digits =>
      ((readDigits 10 0 digits).filter fun n => n < 16 ∧ digits ≠ []).map (BitVec.ofNat 4)
    | other => (readBelow 16 other).map (BitVec.ofNat 4)

/-- The voice letters A, B, C (R118). -/
def readVoice (cs : List Char) : Option (Fin 3) :=
  if cs = ['A'] then some 0
  else if cs = ['B'] then some 1
  else if cs = ['C'] then some 2
  else none

/-- The words of a line up to its comment: blanks part words, a comma is a word of its own. `word`
holds the letters of the word being read, last first. -/
def lineWords (word : List Char) (cs : List Char) : List (List Char) :=
  let flush := if word = [] then [] else [word.reverse]
  match cs with
  | [] => flush
  | c :: rest =>
    if c = ';' then flush
    else if c = ' ' ∨ c = '\t' then flush ++ lineWords [] rest
    else if c = ',' then flush ++ [','] :: lineWords [] rest
    else lineWords (c :: word) rest

/-- The lines a line's words spell: none of them for a blank line, nothing for a line that is no
operation. The base of `N`, `SR` and `P` (R118) is a DESIGN CHOICE: decimal or `0x` hexadecimal, as
for `<value>` (notes/assumptions/12.md). -/
def readLine (cs : List Char) : Option (List AsmLine) :=
  match lineWords [] cs with
  | [] => some []
  | [['r', 'e', 's', 'e', 't']] => some [.reset]
  | [['s', 'a', 'm', 'p', 'l', 'e']] => some [.sample]
  | [['r', 'd'], reg] => (readRegisterName reg).map fun r => [.rd r]
  | [['w', 'r'], reg, [','], value] =>
    (readRegisterName reg).bind fun r =>
      (readBelow 256 value).map fun v => [.wr r (BitVec.ofNat 8 v)]
  | [['s', 'a', 'm', 'p', 'l', 'e', 's'], count] => (readNumber count).map fun n => [.samples n]
  | [['n', 'e', 'w'], rate] => (readNumber rate).map fun n => [.construct n]
  | [['t', 'o', 'n', 'e'], voice, [','], period] =>
    (readVoice voice).bind fun k =>
      (readBelow 4096 period).map fun p => [.tone k (BitVec.ofNat 12 p)]
  | [['e', 'n', 'v', 'p', 'e', 'r'], period] =>
    (readBelow 65536 period).map fun p => [.envper (BitVec.ofNat 16 p)]
  | _ => none

/-- A text cut at its line ends; `line` holds the letters of the line being read, last first. -/
def textLines (line : List Char) (cs : List Char) : List (List Char) :=
  match cs with
  | [] => [line.reverse]
  | c :: rest => if c = '\n' then line.reverse :: textLines [] rest else textLines (c :: line) rest

/-- The operations of a program text, or nothing if some line is no operation (R117). -/
def assemble (text : String) : Option (List HostOp) :=
  ((textLines [] text.toList).mapM readLine).map fun lines => lines.flatten.flatMap AsmLine.expand

/-- The host issues a program after everything it has issued before (R55, R89). -/
def State.withProgram (s : State) (ops : List HostOp) : State :=
  { s with pending := s.pending ++ ops.map Request.issue }

end Sys2Proof.Machine
end

