-- ==== Sys2Proof/Safety.lean ====
section
/-! DEFINITION. The terms the claims use: the reals that exact samples stand for, the formulas of the
spec over the reals, the invariants, and repeated samples. Nothing the machine computes is here. -/

namespace Sys2Proof.Machine

/-! ### Real values -/

/-- The real number a level stands for. -/
noncomputable def Level.value (x : Level) : ℝ := (x.ones + x.roots * √2) / 256

/-- The real number an exact sample stands for (R238 to R240). -/
noncomputable def ExactSample.value (x : ExactSample) : ℝ :=
  match x with
  | .plain sum => sum.value / 3 * (3 / 10)
  | .clipped sum => (1 - Real.exp (-(sum.value / 3 - 1))) * (3 / 10)

/-- `VOL[0] = 0`, `VOL[i] = 2^((i-15)/2) * 0.5` (R52, R230), over the reals. -/
noncomputable def realVolume (i : ℕ) : ℝ :=
  if i = 0 then 0 else (2 : ℝ) ^ (((i : ℝ) - 15) / 2) * (1 / 2)

/-- The gate of rules R234 and R235, as a proposition. -/
abbrev GateOpen (v : Voice) (n : Noise) : Prop :=
  ((v.toneEnabled = true ∧ v.output = 1) ∨ (v.noiseEnabled = true ∧ n.output = 1)) ∧
    ¬(v.toneEnabled = false ∧ v.noiseEnabled = false)

/-- The index into the volume table of rule R236: `ENV_INDEX(env.output)`, or the output itself under
option (b), or the volume. -/
def volumeIndex (c : Config) (v : Voice) (e : Envelope) : ℕ :=
  if v.envelopeEnabled then
    match c.envLevelRule with
    | .index table => (table.get e.output).val
    | .extended => e.output.val
  else v.volume.val

/-- What voice `k` adds to the sum (R236, R237), over the reals. -/
noncomputable def realLevel (c : Config) (b : Block) (k : Fin 3) : ℝ :=
  if GateOpen (b.voiceAt k) b.noise then realVolume (volumeIndex c (b.voiceAt k) b.env) else 0

/-- The soft clip of rule R239. -/
noncomputable def softClip (mixed : ℝ) : ℝ :=
  if 1 < mixed then 1 - Real.exp (-(mixed - 1)) else mixed

/-- `Mix()` of rule R241 over the reals. -/
noncomputable def realMix (c : Config) (b : Block) : ℝ :=
  softClip ((realLevel c b 0 + realLevel c b 1 + realLevel c b 2) / 3) * (3 / 10)

/-! ### The binary64 profile -/

/-- The rational number a finite binary64 magnitude stands for, in units of `2^-1074`. -/
def magnitudeUnits (m : ℕ) : ℕ :=
  if m < 2 ^ 52 then m else (2 ^ 52 + m % 2 ^ 52) * 2 ^ (m / 2 ^ 52 - 1)

/-- `x` is neither an infinity nor a NaN: its magnitude is below the infinity's. -/
abbrev Finite64 (x : Binary64) : Prop := x.toNat % 2 ^ 63 < 2047 * 2 ^ 52

/-- The sign bit. -/
abbrev isNegative (x : Binary64) : Bool := x.getLsbD 63

/-- The rational number a finite binary64 number stands for. -/
def finiteValue (x : Binary64) : ℚ :=
  (if isNegative x then -1 else 1) * magnitudeUnits (x.toNat % 2 ^ 63) / 2 ^ 1074

/-- `r` is `exact` rounded to nearest, a tie to the even significand (D14): no finite number is closer,
and one as close has the same value or leaves `r` even. From half a unit beyond the greatest finite
number on, `r` is the infinity. -/
def RoundsTo (exact : ℚ) (r : Binary64) : Prop :=
  if |exact| < 2 ^ 1024 - 2 ^ 970 then
    Finite64 r ∧ ∀ z, Finite64 z →
      |finiteValue r - exact| ≤ |finiteValue z - exact| ∧
      (|finiteValue r - exact| = |finiteValue z - exact| →
        finiteValue z = finiteValue r ∨ r.getLsbD 0 = false)
  else r.toNat % 2 ^ 63 = 2047 * 2 ^ 52

/-- The sign of a sum: that of the exact sum, and for an exact 0 negative only if both operands are. -/
def sumNegative (exact : ℚ) (m n : Bool) : Bool := if exact = 0 then m && n else decide (exact < 0)

/-- `VOL[i]` of the binary64 profile (R231) and its continuation by option (b) of D11: entry `i - 1` of
`fpow2`'s values, times 0.5. -/
def binaryLevel (c : Config) (i : ℕ) : Binary64 :=
  if i = 0 then 0 else mul64 (c.fpow2.toList.getD (i - 1) 0) 0x3FE0000000000000

/-- The sum after voice `k` (R236, R237) in the binary64 profile. -/
def binarySum (c : Config) (b : Block) (sum : Binary64) (k : Fin 3) : Binary64 :=
  if GateOpen (b.voiceAt k) b.noise then
    add64 sum (binaryLevel c (volumeIndex c (b.voiceAt k) b.env))
  else sum

/-- The soft clip (R239) in the binary64 profile; 0x3FF0000000000000 is 1. -/
def binaryClip (c : Config) (mixed : Binary64) : Binary64 :=
  if greater64 mixed 0x3FF0000000000000 then
    sub64 0x3FF0000000000000 (fexp64 c (negate64 (sub64 mixed 0x3FF0000000000000)))
  else mixed

/-- `Mix()` of rule R241 in the binary64 profile: from +0 the voices A, B, C in that order (D15), divided
by 3, clipped, times the binary64 number nearest to 0.3. -/
def binaryMix (c : Config) (b : Block) : Binary64 :=
  mul64 (binaryClip c (div64 (binarySum c b (binarySum c b (binarySum c b 0 0) 1) 2)
    0x4008000000000000)) 0x3FD3333333333333

/-! ### Invariants -/

/-- The ranges of rule R60 for a voice. -/
abbrev Voice.InRange (v : Voice) : Prop :=
  1 ≤ v.period ∧ v.period ≤ 4095 ∧ v.counter ≤ 4094

/-- The ranges of rule R60 for the noise generator, and the LFSR not 0 (R61). -/
abbrev Noise.InRange (n : Noise) : Prop :=
  (n.period = 1 ∨ (2 ≤ n.period ∧ n.period ≤ 62 ∧ n.period % 2 = 0)) ∧ n.counter ≤ 61 ∧ n.lfsr ≠ 0

/-- The ranges of rule R60 for the envelope, and holding only without continue (R62). -/
abbrev Envelope.InRange (e : Envelope) : Prop :=
  (e.period = 1 ∨ (2 ≤ e.period ∧ e.period ≤ 131070 ∧ e.period % 2 = 0)) ∧ e.counter ≤ 131069 ∧
    (e.holding = true → e.continueFlag = false)

/-- The invariant of rules R60 to R62. -/
abbrev Block.InRange (b : Block) : Prop :=
  (∀ k, (b.voiceAt k).InRange) ∧ b.noise.InRange ∧ b.env.InRange

/-- The periods, levels and flags that no tick changes are what the bank decodes to (R57, R147, R154,
R159, R104, R105, R108). The noise enables are the exception of rule R58: after a reset, until r7 is
written, they are all false although `reg[7] = 0` decodes to true. -/
abbrev Block.BankAgrees (b : Block) : Prop :=
  (∀ k, (b.voiceAt k).period = tonePeriod b k ∧ (b.voiceAt k).volume = directLevel b k ∧
    (b.voiceAt k).envelopeEnabled = envelopeEnable b k ∧
    (b.voiceAt k).toneEnabled = toneEnable b k) ∧
  ((∀ k, (b.voiceAt k).noiseEnabled = noiseEnable b k) ∨
    (b.readReg 7 = 0 ∧ ∀ k, (b.voiceAt k).noiseEnabled = false)) ∧
  b.noise.period = noisePeriod b ∧ b.env.period = envPeriod b ∧
  b.env.continueFlag = shapeContinue b ∧ b.env.alternate = shapeAlternate b ∧
  b.env.hold = shapeHold b

/-! ### Register writes -/

/-- The value check of rules R142 and R143, as a proposition. -/
abbrev Accepts (s : State) (value : Int) : Prop :=
  s.config.writePolicy = .lenient ∨ (0 ≤ value ∧ value ≤ 255)

/-- A write of `value` to cell `i` completed (R140, R144): the cell holds `value` mod 256, every other
cell reads as before, the write succeeded, and nothing outside the block changed. -/
abbrev CellWritten (i : Fin 16) (value : Int) (s t : State) : Prop :=
  ((t.block.readReg i).toNat : Int) = value % 256 ∧
  (∀ j, j ≠ i → t.block.readReg j = s.block.readReg j) ∧
  t.reply = some .done ∧ t.config = s.config ∧ t.sampleRate = s.sampleRate ∧
  t.pending = s.pending

/-- The rule of one register write: the instruction `row value` completes on every accepted value,
with the cell written and the derived state changed as `effect` says of the block before and after;
every other value ends in `InvalidValue` with nothing else changed (R142); and the command word
`(i << 8) | value` is that instruction (R112, R117). -/
def WriteRule (row : Int → Instr) (i : Fin 16) (effect : Block → Block → Prop) : Prop :=
  (∀ (s : State) (value : Int), Accepts s value →
    ∃ t, exec (row value) s = .next t ∧ CellWritten i value s t ∧ effect s.block t.block) ∧
  (∀ (s : State) (value : Int), ¬Accepts s value →
    exec (row value) s = .next { s with reply := some (.error (.invalidValue value)) }) ∧
  (∀ value : Int, 0 ≤ value → value ≤ 255 →
    decode (BitVec.ofNat 16 (256 * i.val + value.toNat)) = .ok (row value))

/-- Nothing derived changes but voice `k`, which becomes `v`. -/
abbrev OnlyVoice (k : Fin 3) (v : Voice) (b c : Block) : Prop :=
  c.voiceAt k = v ∧ (∀ j, j ≠ k → c.voiceAt j = b.voiceAt j) ∧ c.noise = b.noise ∧ c.env = b.env

/-- `TonePeriod(k)` of rule R147 from the fine and coarse cells, on natural numbers. -/
def tonePeriodOf (fine coarse : Byte) : ℕ := max 1 (coarse.toNat % 16 * 256 + fine.toNat)

/-- The effect of a write of `fine` or `coarse`, the period pair of voice `k` (R145, R147). -/
abbrev ToneEffect (k : Fin 3) (fine coarse : Fin 16) (b c : Block) : Prop :=
  OnlyVoice k { b.voiceAt k with period := tonePeriodOf (c.readReg fine) (c.readReg coarse) } b c

/-- The effect of a write of the amplitude register `i` of voice `k` (R156 to R158). -/
abbrev AmplitudeEffect (k : Fin 3) (i : Fin 16) (b c : Block) : Prop :=
  OnlyVoice k { b.voiceAt k with
    volume := Fin.ofNat 16 ((c.readReg i).toNat % 16)
    envelopeEnabled := decide ((c.readReg i).toNat / 16 % 2 = 1) } b c

/-! ### Repeated samples -/

/-- The state after `n` SAMPLE operations. -/
def sampleTimes (n : ℕ) (s : State) : Option State :=
  match n with
  | 0 => some s
  | n + 1 =>
    match exec .sample s with
    | .next t => sampleTimes n t
    | .fault _ => none
    | .refused _ => none

/-! ### What a request asks for -/

/-- The requests that seed the LFSR (R193): reset, by call or by command word, and construction. -/
def SeedsLfsr (r : Request) : Prop :=
  r = .issue .reset ∨ (∃ w, r = .issue (.command w) ∧ decode w = .ok .reset) ∨
    ∃ rate, r = .issue (.construct rate)

/-- How many samples a request asks for. -/
def samplesAsked (r : Request) : ℕ :=
  match r with
  | .issue (.command w) => if decode w = .ok .sample then 1 else 0
  | .issue .generateSample => 1
  | .issue (.processSamples _ count) => count
  | .issue (.writeRegister _ _) => 0
  | .issue (.readRegister _) => 0
  | .issue .reset => 0
  | .issue (.construct _) => 0
  | .overlapping _ _ => 0

/-! ### Relations between runs -/

/-- The bits of each register that some rule reads (R100 to R109): all others are unused. -/
def usedBits (i : Fin 16) : Byte :=
  (#v[0xFF, 0x0F, 0xFF, 0x0F, 0xFF, 0x0F, 0x1F, 0x3F, 0x1F, 0x1F, 0x1F, 0xFF, 0xFF, 0x0F, 0x00,
      0x00] : Vector Byte 16).get i

/-- Two states that differ in unused bits of the bank at most. -/
abbrev SameButUnusedBits (s t : State) : Prop :=
  (∀ i, s.block.readReg i &&& usedBits i = t.block.readReg i &&& usedBits i) ∧
  s.block.voice = t.block.voice ∧ s.block.noise = t.block.noise ∧ s.block.env = t.block.env ∧
  s.sampleRate = t.sampleRate ∧ s.config = t.config ∧ s.pending = t.pending

/-- `s` with the hold flag set to `h`. -/
def State.withHold (s : State) (h : Bool) : State :=
  { s with block := { s.block with env := { s.block.env with hold := h } } }

/-- The output of a shape `n` steps after its write (the table of rule R212): `shape` is bits 3:0 of
r13. -/
def trajectory (shape n : ℕ) : ℕ :=
  if n = 0 then (if shape / 4 % 2 = 1 then 0 else 15)
  else if shape < 4 then 0
  else if shape < 8 then min n 31
  else if shape < 10 then 31 - (n - 1) % 32
  else if shape < 12 then
    if (n - 1) % 64 ≤ 31 then (n - 1) % 64 else 63 - (n - 1) % 64
  else if shape < 14 then n % 32
  else if n % 64 ≤ 31 then n % 64 else 63 - n % 64

/-- Whether a shape is holding `n` steps after its write (the table of rule R212). -/
def trajectoryHolds (shape n : ℕ) : Bool :=
  (decide (shape < 4) && decide (1 ≤ n)) ||
    (decide (4 ≤ shape) && decide (shape < 8) && decide (32 ≤ n))

end Sys2Proof.Machine
end

