-- ==== Sys2Proof/Certificates/Slice0/Obligations.lean ====
section
/-! DEFINITION. The statements for the provers: the rules of spec/ about the machine. -/

open Sys2Proof Sys2Proof.Machine

/-! ### The command word -/

/-- Words written out from the fields of R112 and the verdicts of 95_test_vectors.md section 2.1. -/
def Obligations.SpecWordsDecode : Prop :=
  decode 0x0064 = .ok (.wrR0 100) ∧ decode 0x061F = .ok (.wrR6 31) ∧
  decode 0x073E = .ok (.wrR7 62) ∧ decode 0x080F = .ok (.wrR8 15) ∧
  decode 0x0B01 = .ok (.wrR11 1) ∧ decode 0x0D0E = .ok (.wrR13 14) ∧
  decode 0x0FFF = .ok (.wrR15 255) ∧ decode 0x1000 = .ok .reset ∧ decode 0x2000 = .ok .sample ∧
  decode 0x3700 = .ok (.rd 7) ∧ decode 0x1100 = .error .unusedFieldNonzero ∧
  decode 0x3701 = .error .unusedFieldNonzero ∧ decode 0x4000 = .error .reservedKind

/-- Every instruction that a command word can carry is read back from its word, with its operand. -/
def Obligations.DecodeOfEncode : Prop :=
  ∀ i : Instr, i.wellFormed = true → decode (encode i) = .ok i

/-- A word that decodes is the word of the instruction it decodes to: no bit is dropped. -/
def Obligations.EncodeOfDecode : Prop :=
  ∀ (w : CommandWord) (i : Instr), decode w = .ok i → i.wellFormed = true ∧ encode i = w

/-- What each kind spells, the kind being bits 15:12, the index 11:8, the data 7:0. The command word
is the spec's own decision D16, "The word is the spec's own construction" (R112). -/
def Obligations.CommandKinds : Prop :=
  ∀ w : CommandWord,
    (w.toNat / 4096 = 0 → ∀ index : Fin 16, index.val = w.toNat / 256 % 16 →
      decode w = .ok (Instr.ofWrite index ((w.toNat % 256 : ℕ) : ℤ))) ∧
    (w.toNat / 4096 = 1 → w.toNat % 4096 = 0 → decode w = .ok .reset) ∧
    (w.toNat / 4096 = 2 → w.toNat % 4096 = 0 → decode w = .ok .sample) ∧
    (w.toNat / 4096 = 3 → w.toNat % 256 = 0 →
      decode w = .ok (.rd ((w.toNat / 256 % 16 : ℕ) : ℤ))) ∧
    (4 ≤ w.toNat / 4096 → decode w = .error .reservedKind ∧
      ∀ (s : State) (rest : List Request), s.pending = .issue (.command w) :: rest →
        step s = .refused (.reservedCommand w))

/-- The whole decodable set; every other word is Reserved and refused. This is the spec's own
decision D16, "So the whole decodable set is" (R114). -/
def Obligations.DecodableWords : Prop :=
  ∀ w : CommandWord,
    ((∃ i, decode w = .ok i) ↔
      (w.toNat ≤ 0x0FFF ∨ w.toNat = 0x1000 ∨ w.toNat = 0x2000 ∨
        ∃ i : ℕ, i ≤ 15 ∧ w.toNat = 0x3000 + 256 * i)) ∧
    ((¬∃ i, decode w = .ok i) →
      ∀ (s : State) (rest : List Request), s.pending = .issue (.command w) :: rest →
        step s = .refused (.reservedCommand w))

/-! ### The step -/

/-- A step whose oldest request is a command word performs the instruction the word decodes to, with
that request, and no other, taken off the queue. -/
def Obligations.StepRunsDecodedInstruction : Prop :=
  ∀ (s : State) (w : CommandWord) (i : Instr) (rest : List Request),
    s.pending = .issue (.command w) :: rest → decode w = .ok i →
    step s = exec i { s with pending := rest }

/-- The typed calls of R8 perform the operation of their row. -/
def Obligations.StepRunsTypedCalls : Prop :=
  ∀ (s : State) (rest : List Request),
    (∀ (index : Fin 16) (value : Int),
      s.pending = .issue (.writeRegister index.val value) :: rest →
      step s = exec (Instr.ofWrite index value) { s with pending := rest }) ∧
    (∀ index : Int, s.pending = .issue (.readRegister index) :: rest →
      step s = exec (.rd index) { s with pending := rest }) ∧
    (s.pending = .issue .reset :: rest → step s = exec .reset { s with pending := rest }) ∧
    (s.pending = .issue .generateSample :: rest →
      step s = exec .sample { s with pending := rest })

/-- Between operations the block holds its state unchanged (the last sentence of R285); that the
model takes a step then is its own choice (notes/assumptions/1.md). -/
def Obligations.IdleBlockKeepsState : Prop :=
  ∀ s : State, s.pending = [] → step s = .next s

/-- A step stops on exactly the requests outside the contract, by a refusal that names each. These
are the spec's own decisions D16, D20, D21 and D23, "Refusals a model makes" (R284). -/
def Obligations.RefusalsOfR284 : Prop :=
  ∀ (s : State) (r : Refusal), step s = .refused r ↔
    ∃ (request : Request) (rest : List Request), s.pending = request :: rest ∧
      ((∃ w, request = .issue (.command w) ∧ (¬∃ i, decode w = .ok i) ∧ r = .reservedCommand w) ∨
        (∃ len count, request = .issue (.processSamples len count) ∧ len < count ∧
          r = .shortBuffer len count) ∨
        (request = .issue (.construct 0) ∧ r = .zeroSampleRate) ∨
        (∃ a b, request = .overlapping a b ∧ r = .overlappingOperations))

/-! ### Errors -/

/-- R271: a write of a byte to an index outside 0..15, and a read there, return `OutOfRange(index)`.
-/
def Obligations.OutOfRangeErrors : Prop :=
  ∀ (s : State) (rest : List Request) (index : Int), ¬(0 ≤ index ∧ index ≤ 15) →
    (∀ value : Int, 0 ≤ value → value ≤ 255 →
      s.pending = .issue (.writeRegister index value) :: rest →
      step s = .next { s with pending := rest, reply := some (.error (.outOfRange index)) }) ∧
    (s.pending = .issue (.readRegister index) :: rest →
      step s = .next { s with pending := rest, reply := some (.error (.outOfRange index)) })

/-- The index is checked before the value, so a write outside the bank reports `OutOfRange` whatever
the value and the policy. This order is the spec's own decision D13, "because the index is checked
first" (R275). -/
def Obligations.IndexCheckedFirst : Prop :=
  ∀ (s : State) (rest : List Request) (index value : Int),
    s.pending = .issue (.writeRegister index value) :: rest → ¬(0 ≤ index ∧ index ≤ 15) →
    ¬(0 ≤ value ∧ value ≤ 255) →
    step s = .next { s with pending := rest, reply := some (.error (.outOfRange index)) }

/-- R142: under the strict policy a value outside 0..255 fails with `InvalidValue(value)` and
nothing changes; under the lenient policy that error is never returned (R272). -/
def Obligations.InvalidValueOnlyStrict : Prop :=
  (∀ (s : State) (rest : List Request) (index value : Int),
    s.pending = .issue (.writeRegister index value) :: rest → 0 ≤ index → index ≤ 15 →
    s.config.writePolicy = .strict → ¬(0 ≤ value ∧ value ≤ 255) →
    step s = .next { s with pending := rest, reply := some (.error (.invalidValue value)) }) ∧
  (∀ (s t : State) (value : Int), s.pending ≠ [] → step s = .next t →
    t.reply = some (.error (.invalidValue value)) →
    s.config.writePolicy = .strict ∧ ¬(0 ≤ value ∧ value ≤ 255))

/-- Under the lenient policy every integer value is accepted, and its low byte on the mathematical
integer is stored. For a negative value this is the spec's own decision D12, "a negative value is
masked as its two's-complement low byte" (R143). -/
def Obligations.LenientWriteMasks : Prop :=
  ∀ (s : State) (rest : List Request) (index : Fin 16) (value : Int),
    s.pending = .issue (.writeRegister index.val value) :: rest →
    s.config.writePolicy = .lenient →
    ∃ t, step s = .next t ∧ t.reply = some .done ∧
      ((t.block.readReg index).toNat : Int) = value % 256 ∧
      ∀ j, j ≠ index → t.block.readReg j = s.block.readReg j

/-- R273: an operation that returns an error changed no state of the block, nor its configuration.
-/
def Obligations.ErrorChangesNoState : Prop :=
  ∀ (s t : State) (request : Request) (rest : List Request) (e : Error),
    s.pending = request :: rest → step s = .next t → t.reply = some (.error e) →
    t = { s with pending := rest, reply := some (.error e) }

/-! ### The register writes, row by row -/

/-- R148 to R153: the six tone period writes. -/
def Obligations.TonePeriodWrites : Prop :=
  WriteRule .wrR0 0 (ToneEffect 0 0 1) ∧ WriteRule .wrR1 1 (ToneEffect 0 0 1) ∧
  WriteRule .wrR2 2 (ToneEffect 1 2 3) ∧ WriteRule .wrR3 3 (ToneEffect 1 2 3) ∧
  WriteRule .wrR4 4 (ToneEffect 2 4 5) ∧ WriteRule .wrR5 5 (ToneEffect 2 4 5)

/-- R154: the noise period write. -/
def Obligations.NoisePeriodWrite : Prop :=
  WriteRule .wrR6 6 fun b c =>
    c.noise = { b.noise with period := max 1 ((c.readReg 6).toNat % 32 * 2) } ∧
    c.voice = b.voice ∧ c.env = b.env

/-- R155: the mixer write, bits 2:0 the tone disables and bits 5:3 the noise disables. -/
def Obligations.MixerWrite : Prop :=
  WriteRule .wrR7 7 fun b c =>
    (∀ k : Fin 3, c.voiceAt k = { b.voiceAt k with
      toneEnabled := decide ((c.readReg 7).toNat / 2 ^ k.val % 2 = 0)
      noiseEnabled := decide ((c.readReg 7).toNat / 2 ^ (3 + k.val) % 2 = 0) }) ∧
    c.noise = b.noise ∧ c.env = b.env

/-- R156 to R158: the three amplitude writes. -/
def Obligations.AmplitudeWrites : Prop :=
  WriteRule .wrR8 8 (AmplitudeEffect 0 8) ∧ WriteRule .wrR9 9 (AmplitudeEffect 1 9) ∧
  WriteRule .wrR10 10 (AmplitudeEffect 2 10)

/-- The two envelope period writes. The composition is the spec's own decisions D6 and D7, "the
clamp is applied after doubling" (R159). -/
def Obligations.EnvelopePeriodWrites : Prop :=
  (WriteRule .wrR11 11 fun b c =>
    c.env = { b.env with
      period := max 1 (((c.readReg 12).toNat * 256 + (c.readReg 11).toNat) * 2) } ∧
    c.voice = b.voice ∧ c.noise = b.noise) ∧
  (WriteRule .wrR12 12 fun b c =>
    c.env = { b.env with
      period := max 1 (((c.readReg 12).toNat * 256 + (c.readReg 11).toNat) * 2) } ∧
    c.voice = b.voice ∧ c.noise = b.noise)

/-- R162 and R210: the shape write loads the four flags and restarts the envelope, every time. -/
def Obligations.ShapeWriteRestarts : Prop :=
  WriteRule .wrR13 13 fun b c =>
    c.env = { b.env with
      continueFlag := decide ((c.readReg 13).toNat / 8 % 2 = 1)
      attack := decide ((c.readReg 13).toNat / 4 % 2 = 1)
      alternate := decide ((c.readReg 13).toNat / 2 % 2 = 1)
      hold := decide ((c.readReg 13).toNat % 2 = 1)
      counter := 0
      phase := 0
      holding := false
      output := if (c.readReg 13).toNat / 4 % 2 = 1 then 0 else 15 } ∧
    c.voice = b.voice ∧ c.noise = b.noise

/-- R163 and R164: registers 14 and 15 are stored and read back, derive nothing, and never affect a
sample. -/
def Obligations.StoredOnlyWrites : Prop :=
  (WriteRule .wrR14 14 fun b c => c.voice = b.voice ∧ c.noise = b.noise ∧ c.env = b.env) ∧
  (WriteRule .wrR15 15 fun b c => c.voice = b.voice ∧ c.noise = b.noise ∧ c.env = b.env) ∧
  ∀ (s t : State) (value : Int) (index : Fin 16), index.val = 14 ∨ index.val = 15 →
    exec (Instr.ofWrite index value) s = .next t →
    (Accepts s value → ∃ b : Byte, (b.toNat : Int) = value % 256 ∧
      exec (.rd index.val) t = .next { t with reply := some (.byte b) }) ∧
    ∀ n, ∃ u v, sampleTimes (n + 1) s = some u ∧ sampleTimes (n + 1) t = some v ∧
      v.reply = u.reply

/-- Every write but the shape write is idempotent (the spec's derivation, "writing the same value
twice in a row leaves the same state as writing it once", R88), the shape write restarts the
envelope even when the written value is the value already there, and a read has no side effect. -/
def Obligations.WritesIdempotentButShape : Prop :=
  (∀ (s t : State) (index : Fin 16) (value : Int), index ≠ 13 →
    exec (Instr.ofWrite index value) s = .next t →
    exec (Instr.ofWrite index value) t = .next t) ∧
  (∀ s : State, ∃ t, exec (.wrR13 (s.block.readReg 13).toNat) s = .next t ∧
    t.block.reg = s.block.reg ∧ t.block.env.counter = 0 ∧ t.block.env.phase = 0 ∧
    t.block.env.holding = false ∧
    t.block.env.output = (if (s.block.readReg 13).toNat / 4 % 2 = 1 then 0 else 15)) ∧
  (∀ (s t : State) (index : Int), exec (.rd index) s = .next t →
    t.block = s.block ∧ t.config = s.config ∧ t.sampleRate = s.sampleRate ∧ t.pending = s.pending)

/-- The pseudo-operations `tone <k>, P` and `envper P` of R118 set the period they name, from any
state, under either policy. -/
def Obligations.PseudoOperationsSetPeriods : Prop :=
  ∀ s : State,
    (∀ (k : Fin 3) (p : BitVec 12), ∃ u t,
      step { s with pending := (AsmLine.expand (.tone k p)).map Request.issue } = .next u ∧
      step u = .next t ∧ t.pending = [] ∧ (t.block.voiceAt k).period = max 1 p.toNat) ∧
    (∀ p : BitVec 16, ∃ u t,
      step { s with pending := (AsmLine.expand (.envper p)).map Request.issue } = .next u ∧
      step u = .next t ∧ t.pending = [] ∧ t.block.env.period = max 1 (p.toNat * 2))

/-! ### Read, reset, construction -/

/-- R175: `readRegister` returns the stored byte, unused bits included, and changes no state; an
index outside 0..15 is `OutOfRange`; after reset every byte is 0. -/
def Obligations.ReadRegister : Prop :=
  (∀ (s : State) (index : Fin 16),
    exec (.rd index.val) s = .next { s with reply := some (.byte (s.block.readReg index)) }) ∧
  (∀ (s : State) (index : Int), ¬(0 ≤ index ∧ index ≤ 15) →
    exec (.rd index) s = .next { s with reply := some (.error (.outOfRange index)) }) ∧
  (∀ (s t : State) (index : Fin 16), exec .reset s = .next t →
    exec (.rd index.val) t = .next { t with reply := some (.byte 0) }) ∧
  (∀ index : Fin 16, decode (BitVec.ofNat 16 (0x3000 + 256 * index.val)) = .ok (.rd index.val))

/-- R170: the whole block takes the listed values; the configuration and `sampleRate` stay. -/
def Obligations.ResetSetsListedState : Prop :=
  ∀ s : State, ∃ t, exec .reset s = .next t ∧
    (∀ i, t.block.readReg i = 0) ∧
    (∀ k, t.block.voiceAt k =
      { period := 1, counter := 0, output := 0, volume := 0, envelopeEnabled := false,
        noiseEnabled := false, toneEnabled := true }) ∧
    t.block.noise = { period := 1, counter := 0, output := 0, lfsr := 1 } ∧
    t.block.env =
      { period := 1, counter := 0, continueFlag := false, attack := false, alternate := false,
        hold := false, phase := 0, output := 15, holding := false } ∧
    t.reply = some .done ∧ t.config = s.config ∧ t.sampleRate = s.sampleRate ∧
    t.pending = s.pending ∧ decode 0x1000 = .ok .reset

/-- Reset is idempotent (the spec's derivation, "whose result does not depend on the state before
it", R171). -/
def Obligations.ResetIdempotent : Prop :=
  ∀ s t : State, exec .reset s = .next t → exec .reset t = .next t

/-- The spec's derivation R58, "not the decode of the zeroed register bank": after a reset the noise
enables are false though r7 = 0 decodes to true, and writing r7 makes them agree; the tone enables
are true and the envelope output is 15 while r13 = 0. -/
def Obligations.ResetDisagreesWithBank : Prop :=
  ∀ s t : State, exec .reset s = .next t →
    t.block.readReg 7 = 0 ∧ t.block.readReg 13 = 0 ∧ t.block.env.output = 15 ∧
    (∀ k, (t.block.voiceAt k).noiseEnabled = false ∧ (t.block.voiceAt k).toneEnabled = true) ∧
    ∃ u, exec (.wrR7 0) t = .next u ∧
      ∀ k, (u.block.voiceAt k).noiseEnabled = true ∧ (u.block.voiceAt k).toneEnabled = true

/-- `new(SR)` records the rate and resets (R252); that `new(0)` is refused is the spec's own
decision D21. -/
def Obligations.NewRecordsRateAndResets : Prop :=
  ∀ (s : State) (rest : List Request) (rate : ℕ),
    s.pending = .issue (.construct rate) :: rest →
    (0 < rate → ∃ t, step s = .next t ∧ t.sampleRate = rate ∧ t.config = s.config ∧
      t.pending = rest ∧ t.reply = some .done ∧ exec .reset { s with pending := rest } =
        .next { t with sampleRate := s.sampleRate }) ∧
    (rate = 0 → step s = .refused .zeroSampleRate)

/-! ### SAMPLE: the generators -/

/-- R180 and R183: one sample advances every tone counter by one tick, each from its own state. -/
def Obligations.SampleTicksTones : Prop :=
  ∀ s : State, ∃ t, exec .sample s = .next t ∧ ∀ k : Fin 3,
    let v := s.block.voiceAt k
    (v.counter + 1 < v.period → t.block.voiceAt k = { v with counter := v.counter + 1 }) ∧
    (v.period ≤ v.counter + 1 → t.block.voiceAt k =
      { v with counter := 0, output := if v.output = 0 then 1 else 0 })

/-- R190 to R192: one sample advances the noise generator by one tick. At a step the feedback is the
exclusive-or of bits 0 and 3, shifted in at bit 16, and the output is the new bit 0. -/
def Obligations.SampleTicksNoise : Prop :=
  ∀ s : State, ∃ t, exec .sample s = .next t ∧
    let n := s.block.noise
    let l := n.lfsr.toNat
    (n.counter + 1 < n.period → t.block.noise = { n with counter := n.counter + 1 }) ∧
    (n.period ≤ n.counter + 1 →
      t.block.noise.period = n.period ∧ t.block.noise.counter = 0 ∧
      t.block.noise.lfsr.toNat = l / 2 + 65536 * ((l + l / 8) % 2) ∧
      t.block.noise.output.val = l / 2 % 2)

/-- R201 and R202: the hold gate stops the whole tick, counter included; otherwise a tick below the
period only counts, and only the reading `EveryTick` touches the output. -/
def Obligations.SampleCountsEnvelope : Prop :=
  ∀ s : State, ∃ t, exec .sample s = .next t ∧
    let e := s.block.env
    (e.continueFlag = false → e.holding = true → t.block.env = e) ∧
    (¬(e.continueFlag = false ∧ e.holding = true) → e.counter + 1 < e.period →
      t.block.env = { e with
        counter := e.counter + 1
        output := if s.config.envOutputRule = .everyTick ∧ e.holding = false then e.phase
          else e.output })

/-- R203 to R207: a step of an envelope that is not holding moves the phase, applies the policy at
either end, and updates the output by the reading in force (R208, a parameter of the machine). -/
def Obligations.SampleStepsEnvelope : Prop :=
  ∀ s : State, ∃ t, exec .sample s = .next t ∧
    let e := s.block.env
    let f := t.block.env
    (e.holding = false → e.period ≤ e.counter + 1 →
      f.counter = 0 ∧ f.period = e.period ∧ f.continueFlag = e.continueFlag ∧
      f.alternate = e.alternate ∧ f.hold = e.hold ∧
      (e.attack = true → e.phase.val < 31 →
        f.phase.val = e.phase.val + 1 ∧ f.attack = true ∧ f.holding = false) ∧
      (e.attack = true → e.phase.val = 31 →
        (e.continueFlag = false → f.phase = 31 ∧ f.attack = true ∧ f.holding = true) ∧
        (e.continueFlag = true → e.alternate = true →
          f.phase = 31 ∧ f.attack = false ∧ f.holding = false) ∧
        (e.continueFlag = true → e.alternate = false →
          f.phase = 0 ∧ f.attack = true ∧ f.holding = false)) ∧
      (e.attack = false → 0 < e.phase.val →
        f.phase.val + 1 = e.phase.val ∧ f.attack = false ∧ f.holding = false) ∧
      (e.attack = false → e.phase.val = 0 →
        (e.continueFlag = false → f.phase = 0 ∧ f.attack = false ∧ f.holding = true) ∧
        (e.continueFlag = true → e.alternate = true →
          f.phase = 0 ∧ f.attack = true ∧ f.holding = false) ∧
        (e.continueFlag = true → e.alternate = false →
          f.phase = 31 ∧ f.attack = false ∧ f.holding = false)) ∧
      (s.config.envOutputRule = .onStep → f.output = f.phase) ∧
      (s.config.envOutputRule ≠ .onStep →
        f.output = if f.holding = true then e.output else f.phase)) ∧
    (e.holding = true → e.continueFlag = true → e.period ≤ e.counter + 1 →
      f = { e with counter := 0 })

/-- What SAMPLE leaves unchanged: the register bank, every period, volume, enable and shape flag but
`attack`, the configuration and the queue. -/
def Obligations.SampleFrame : Prop :=
  ∀ s : State, ∃ t, exec .sample s = .next t ∧
    (∀ i, t.block.readReg i = s.block.readReg i) ∧
    (∀ k, (t.block.voiceAt k).period = (s.block.voiceAt k).period ∧
      (t.block.voiceAt k).volume = (s.block.voiceAt k).volume ∧
      (t.block.voiceAt k).envelopeEnabled = (s.block.voiceAt k).envelopeEnabled ∧
      (t.block.voiceAt k).noiseEnabled = (s.block.voiceAt k).noiseEnabled ∧
      (t.block.voiceAt k).toneEnabled = (s.block.voiceAt k).toneEnabled) ∧
    t.block.noise.period = s.block.noise.period ∧
    t.block.env.period = s.block.env.period ∧
    t.block.env.continueFlag = s.block.env.continueFlag ∧
    t.block.env.alternate = s.block.env.alternate ∧ t.block.env.hold = s.block.env.hold ∧
    t.config = s.config ∧ t.sampleRate = s.sampleRate ∧ t.pending = s.pending

/-- R181: from counter 0, with the period `P` unchanged, the output has toggled `n / P` times after
sample `n`, whatever it was: exactly at samples P, 2P, 3P. -/
def Obligations.ToneIsSquareWave : Prop :=
  ∀ (s : State) (k : Fin 3) (n : ℕ), (s.block.voiceAt k).counter = 0 →
    1 ≤ (s.block.voiceAt k).period →
    ∃ t, sampleTimes n s = some t ∧
      (t.block.voiceAt k).counter = n % (s.block.voiceAt k).period ∧
      (t.block.voiceAt k).output.val =
        ((s.block.voiceAt k).output.val + n / (s.block.voiceAt k).period) % 2

/-- The spec's derivation R182, "the new period takes effect at the next tick": a period write keeps
counter and output; if the new period is at most the counter plus one the next sample toggles,
otherwise the toggle comes `newPeriod - counter` samples later. -/
def Obligations.PeriodChangeTakesEffectNextTick : Prop :=
  ∀ (s t : State) (k : Fin 3) (index : Fin 16) (value : Int),
    (index.val = 2 * k.val ∨ index.val = 2 * k.val + 1) →
    exec (Instr.ofWrite index value) s = .next t →
    (t.block.voiceAt k).counter = (s.block.voiceAt k).counter ∧
    (t.block.voiceAt k).output = (s.block.voiceAt k).output ∧
    ∀ n u, sampleTimes n t = some u →
      ((t.block.voiceAt k).period ≤ (t.block.voiceAt k).counter + 1 → n = 1 →
        (u.block.voiceAt k).output = 1 - (s.block.voiceAt k).output) ∧
      (n < (t.block.voiceAt k).period - (t.block.voiceAt k).counter →
        (u.block.voiceAt k).output = (s.block.voiceAt k).output) ∧
      ((t.block.voiceAt k).counter + 1 < (t.block.voiceAt k).period →
        n = (t.block.voiceAt k).period - (t.block.voiceAt k).counter →
        (u.block.voiceAt k).output = 1 - (s.block.voiceAt k).output)

/-- R193: reset and construction seed the LFSR with 1, and no other operation loads it. It is shifted
at most once for each sample the operation asks for, so a write, a read, an error and an idle step
keep it. -/
def Obligations.LfsrNeverLoaded : Prop :=
  ∀ s t : State, step s = .next t →
    (s.pending = [] → t.block.noise.lfsr = s.block.noise.lfsr) ∧
    ∀ request rest, s.pending = request :: rest →
      (SeedsLfsr request → t.block.noise.lfsr = 1) ∧
      (¬SeedsLfsr request →
        ∃ n ≤ samplesAsked request, t.block.noise.lfsr = lfsrNext^[n] s.block.noise.lfsr)

/-- The spec's evaluation R194, "visits 131071 = 2^17 - 1 distinct non-zero states": from the seed 1
the LFSR first returns to 1 after 131071 steps, never 0 on the way, with the output bit 1 on 65536
of the steps. -/
def Obligations.NoiseFullPeriod : Prop :=
  lfsrNext^[131071] 1 = 1 ∧ (∀ n : ℕ, 0 < n → n < 131071 → lfsrNext^[n] 1 ≠ 1) ∧
  (∀ n : ℕ, lfsrNext^[n] 1 ≠ 0) ∧
  ((Finset.range 131071).filter fun n => (lfsrNext^[n + 1] 1).getLsbD 0 = true).card = 65536

/-- The spec's derivation R212, "Trajectories of the sixteen shapes (derived)", under `OnStep`:
after an accepted shape write, with `p` the envelope period, sample `m` leaves the output, and the
holding flag, of step `m / p` of the shape's trajectory. -/
def Obligations.EnvelopeTrajectories : Prop :=
  ∀ (s t : State) (value : Int) (m : ℕ), Accepts s value → s.config.envOutputRule = .onStep →
    1 ≤ s.block.env.period → exec (.wrR13 value) s = .next t →
    ∃ u, sampleTimes m t = some u ∧
      u.block.env.output.val = trajectory (value % 16).toNat (m / s.block.env.period) ∧
      u.block.env.holding = trajectoryHolds (value % 16).toNat (m / s.block.env.period)

/-- The spec's derivation R293, "Behaviour from reset with no writes": from the reset state with no
writes every tone toggles at every sample, the envelope holds at output 0 from sample 1 on, and
every sample is 0. -/
def Obligations.SilenceFromReset : Prop :=
  ∀ n : ℕ, ∃ t, sampleTimes (n + 1) State.reset = some t ∧
    (∀ k, (t.block.voiceAt k).counter = 0 ∧ (t.block.voiceAt k).output.val = (n + 1) % 2) ∧
    t.block.noise.lfsr = lfsrNext^[n + 1] 1 ∧
    t.block.env.output = 0 ∧ t.block.env.holding = true ∧
    ∃ x, t.reply = some (.sample x) ∧ x.exact.value = 0 ∧ x.binary64 = 0

/-! ### SAMPLE: the mix -/

/-- The volume table, exactly (R52) and in binary64 under the default `fpow2` (the spec's
evaluation, "computed from the exact values by correct rounding", R230). -/
def Obligations.VolumeTable : Prop :=
  (volumeLevel 0).value = 0 ∧
  (∀ i : Fin 32, i.val ≠ 0 →
    (volumeLevel i).value = (2 : ℝ) ^ (((i.val : ℝ) - 15) / 2) * (1 / 2)) ∧
  (List.finRange 16).map (fun i => volume64 defaultConfig (i.castLE (by omega))) =
    [0x0000000000000000, 0x3F70000000000000, 0x3F76A09E667F3BCD, 0x3F80000000000000,
     0x3F86A09E667F3BCD, 0x3F90000000000000, 0x3F96A09E667F3BCD, 0x3FA0000000000000,
     0x3FA6A09E667F3BCD, 0x3FB0000000000000, 0x3FB6A09E667F3BCD, 0x3FC0000000000000,
     0x3FC6A09E667F3BCD, 0x3FD0000000000000, 0x3FD6A09E667F3BCD, 0x3FE0000000000000]

/-- R233 and R236 to R241: the sample returned stands for `Mix()` over the reals, of the state the
ticks of the same sample left, whatever the parameters. -/
def Obligations.SampleIsRealMix : Prop :=
  ∀ s : State, ∃ t x, exec .sample s = .next t ∧ t.reply = some (.sample x) ∧
    x.exact.value = realMix t.config t.block

/-- The spec's derivation R242, "the maximum, exact value 0.15": under any `ENV_INDEX` into the
16-entry table the sample is in [0, 0.15], never clipped, and 0.15 only with all three voices gated
on at index 15. -/
def Obligations.SampleRange : Prop :=
  ∀ (s : State) (table : Vector (Fin 16) 32), s.config.envLevelRule = .index table →
    ∃ t x, exec .sample s = .next t ∧ t.reply = some (.sample x) ∧
      0 ≤ x.exact.value ∧ x.exact.value ≤ 15 / 100 ∧ (∀ sum, x.exact ≠ .clipped sum) ∧
      (x.exact.value = 15 / 100 ↔ ∀ k, GateOpen (t.block.voiceAt k) t.block.noise ∧
        volumeIndex t.config (t.block.voiceAt k) t.block.env = 15)

/-- The same range in the binary64 profile (the spec's decision D14, its `fpow2` exact): with the
default `fpow2` the binary64 sample is between +0 and the binary64 number 0.15. -/
def Obligations.BinarySampleRange : Prop :=
  ∀ (s : State) (table : Vector (Fin 16) 32), s.config.envLevelRule = .index table →
    s.config.fpow2 = exactPow2Table →
    ∃ t x, exec .sample s = .next t ∧ t.reply = some (.sample x) ∧
      x.binary64.toNat ≤ 0x3FC3333333333333

/-- The rounding of the binary64 profile (the spec's decision D14, "round-to-nearest-even", R15) is
to nearest, ties to even: no finite magnitude is closer to `num / den` units than the result, and
one as close makes the result even. -/
def Obligations.RoundingIsNearestEven : Prop :=
  ∀ num den m : ℕ, 0 < den → m < 2047 * 2 ^ 52 → roundBits num den < 2047 * 2 ^ 52 →
    |(magnitudeUnits (roundBits num den) : ℚ) - num / den| ≤ |(magnitudeUnits m : ℚ) - num / den| ∧
    (|(magnitudeUnits (roundBits num den) : ℚ) - num / den| = |(magnitudeUnits m : ℚ) - num / den| →
      m = roundBits num den ∨ roundBits num den % 2 = 0)

/-- "A voice with both sources disabled is silent, whatever its level" (R235): a voice with both
sources disabled never contributes, whatever its level: changing its level changes no sample. -/
def Obligations.DisabledVoiceIsSilent : Prop :=
  ∀ (s : State) (k : Fin 3) (volume : Fin 16) (envelopeEnabled : Bool) (t u : State),
    (s.block.voiceAt k).toneEnabled = false → (s.block.voiceAt k).noiseEnabled = false →
    exec .sample s = .next t →
    exec .sample { s with block := s.block.updateVoice k fun v =>
      { v with volume := volume, envelopeEnabled := envelopeEnabled } } = .next u →
    u.reply = t.reply

/-- The batch form returns the results of `count` samples in order and leaves their state (R251);
that a short buffer is refused is the spec's own decision D20. -/
def Obligations.BatchIsRepeatedSample : Prop :=
  ∀ (s : State) (rest : List Request) (bufferLength count : ℕ),
    s.pending = .issue (.processSamples bufferLength count) :: rest →
    (count ≤ bufferLength → ∃ t u xs, step s = .next t ∧
      sampleTimes count { s with pending := rest } = some u ∧ t.block = u.block ∧
      t.config = s.config ∧ t.sampleRate = s.sampleRate ∧ t.pending = rest ∧
      t.reply = some (.samples xs) ∧ xs.length = count ∧
      ∀ (j : ℕ) (x : Sample), xs[j]? = some x →
        ∃ w, sampleTimes (j + 1) { s with pending := rest } = some w ∧
          w.reply = some (.sample x)) ∧
    (bufferLength < count → step s = .refused (.shortBuffer bufferLength count))

/-! ### Independence and invariants -/

/-- R243: the result of an operation and the block it leaves are functions of the block and the
parameters alone: two runs whose hosts, rates and earlier results differ cannot be told apart. -/
def Obligations.OperationsReadBlockAndConfigOnly : Prop :=
  ∀ (i : Instr) (s s' t t' : State), s.block = s'.block → s.config = s'.config →
    exec i s = .next t → exec i s' = .next t' → t.block = t'.block ∧ t.reply = t'.reply

/-- The spec's derivation R111, "has no other effect": an unused bit of a register has no effect but
on what `readRegister` returns: two states that differ in unused bits only still do after any
instruction, and get the same results. -/
def Obligations.UnusedBitsHaveNoEffect : Prop :=
  ∀ (i : Instr) (s s' t : State), SameButUnusedBits s s' → exec i s = .next t →
    ∃ t', exec i s' = .next t' ∧ SameButUnusedBits t t' ∧
      ((∀ index, i ≠ .rd index) → t'.reply = t.reply)

/-- "no rule reads it" (R209): with the other flag value every operation gives the same result and
the same state but for that flag. -/
def Obligations.HoldFlagHasNoEffect : Prop :=
  ∀ (i : Instr) (s t : State) (h : Bool), exec i s = .next t →
    ∃ t', exec i (s.withHold h) = .next t' ∧ t'.reply = t.reply ∧
      t'.withHold false = t.withHold false

/-- One policy holds for the whole run (R143), and so does every other parameter; `sampleRate` is
changed by `new` only, the spec's own decision D21 (R54). That the parameters stand in State and no
step changes them is the model's choice (notes/assumptions/3.md). -/
def Obligations.ConfigurationIsFixed : Prop :=
  ∀ s t : State, step s = .next t → t.config = s.config ∧
    (t.sampleRate = s.sampleRate ∨
      ∃ rate rest, s.pending = .issue (.construct rate) :: rest ∧ t.sampleRate = rate)

/-- The reset state is in the ranges the spec derives in R60 to R62. -/
def Obligations.ResetInRange : Prop := State.reset.block.InRange

/-- The spec's derivations R60 to R62: every step keeps every counter, period and level in its
range, the LFSR off 0, and holding to shapes without continue. -/
def Obligations.StepKeepsRanges : Prop :=
  ∀ s t : State, s.block.InRange → step s = .next t → t.block.InRange

/-- The reset state agrees with its bank as far as R58 lets it. -/
def Obligations.ResetAgreesWithBank : Prop := State.reset.block.BankAgrees

/-- R57 with the spec's derivation R58: every step keeps the derived state the decode of the bank,
but for the noise enables from a reset to the next write of r7. -/
def Obligations.StepKeepsBankAgreement : Prop :=
  ∀ s t : State, s.block.BankAgrees → step s = .next t → t.block.BankAgrees

/-! ### The value of the binary64 sample -/

/-- Binary64 arithmetic on finite numbers is the exact result rounded to nearest even, with its sign,
and the comparison is that of the values (the spec's decision D14, "round-to-nearest-even", R15). -/
def Obligations.BinaryArithmeticRounds : Prop :=
  ∀ x y : Binary64, Finite64 x → Finite64 y →
    (RoundsTo (finiteValue x + finiteValue y) (add64 x y) ∧
      isNegative (add64 x y) =
        sumNegative (finiteValue x + finiteValue y) (isNegative x) (isNegative y)) ∧
    (RoundsTo (finiteValue x - finiteValue y) (sub64 x y) ∧
      isNegative (sub64 x y) =
        sumNegative (finiteValue x - finiteValue y) (isNegative x) (!isNegative y)) ∧
    (RoundsTo (finiteValue x * finiteValue y) (mul64 x y) ∧
      isNegative (mul64 x y) = (isNegative x ^^ isNegative y)) ∧
    (finiteValue y ≠ 0 → RoundsTo (finiteValue x / finiteValue y) (div64 x y) ∧
      isNegative (div64 x y) = (isNegative x ^^ isNegative y)) ∧
    (greater64 x y = true ↔ finiteValue y < finiteValue x)

/-- The binary64 sample is the chain of R237 to R240 on the state the ticks of the same sample left,
the voices in the order A, B, C from +0, which is the spec's decision D15, "additions are performed
in voice order A, B, C" (R237). -/
def Obligations.BinarySampleIsChain : Prop :=
  ∀ s : State, ∃ t x, exec .sample s = .next t ∧ t.reply = some (.sample x) ∧
    x.binary64 = binaryMix t.config t.block
end

