-- ==== Sys2Proof/Laws/Binary64.lean ====
section
/-! SUPPORT. A finite binary64 number as its sign and its whole number of units of `2^-1074`. -/

namespace Sys2Proof.Machine

theorem exponentField_eq (x : Binary64) : exponentField x = x.toNat % 2 ^ 63 / 2 ^ 52 := by
  have := x.isLt
  simp only [exponentField, BitVec.extractLsb'_toNat, Nat.shiftRight_eq_div_pow]
  omega

theorem fractionField_eq (x : Binary64) : fractionField x = x.toNat % 2 ^ 63 % 2 ^ 52 := by
  have := x.isLt
  simp only [fractionField, BitVec.extractLsb'_toNat, Nat.shiftRight_eq_div_pow]
  omega

/-- A finite number is taken apart into its sign and the units of its magnitude. -/
theorem unpack_finite {x : Binary64} (h : Finite64 x) :
    unpack x = .finite (isNegative x) (magnitudeUnits (x.toNat % 2 ^ 63)) := by
  have e := exponentField_eq x
  have f := fractionField_eq x
  unfold unpack magnitudeUnits
  rw [e, f]
  split
  · omega
  · split
    · rw [if_pos (by omega), Nat.mod_eq_of_lt (by omega)]
    · rw [if_neg (by omega), Nat.shiftLeft_eq]

/-- Its value is its signed number of units, scaled. -/
theorem finiteValue_eq (x : Binary64) :
    finiteValue x = (signedUnits (isNegative x) (magnitudeUnits (x.toNat % 2 ^ 63)) : ℚ) / 2 ^ 1074 := by
  unfold finiteValue signedUnits
  cases isNegative x <;> simp

/-- A finite number is 0 exactly when its magnitude has no units. -/
theorem finiteValue_eq_zero (x : Binary64) :
    finiteValue x = 0 ↔ magnitudeUnits (x.toNat % 2 ^ 63) = 0 := by
  rw [finiteValue_eq]
  unfold signedUnits
  have h : (2 : ℚ) ^ 1074 ≠ 0 := pow_ne_zero _ two_ne_zero
  cases isNegative x <;> simp only [div_eq_zero_iff, h, or_false] <;> simp

/-- Packing a sign and a magnitude keeps both. -/
theorem packBits_fields (negative : Bool) {m : ℕ} (h : m < 2 ^ 63) :
    isNegative (packBits negative m) = negative ∧ (packBits negative m).toNat % 2 ^ 63 = m := by
  constructor
  · unfold isNegative packBits
    rw [BitVec.getLsbD_append]
    cases negative <;> rfl
  · simp only [packBits, BitVec.toNat_append, BitVec.toNat_ofNat, Nat.mod_eq_of_lt h]
    rw [← Nat.shiftLeft_add_eq_or_of_lt h, Nat.shiftLeft_eq]
    omega

/-- A rounded magnitude is at most the infinity's. -/
theorem roundBits_le (num den : ℕ) : roundBits num den ≤ 2047 * 2 ^ 52 := by
  unfold roundBits
  rw [Nat.shiftLeft_eq 2047]
  exact Nat.min_le_right _ _

end Sys2Proof.Machine
end

