-- ==== Sys2Proof/Laws/State.lean ====
section
/-! SUPPORT. One lemma per field per update, and read after write of cells and voices. -/

namespace Sys2Proof.Machine

@[simp] theorem State.finish_block (s : State) (b : Block) (r : Reply) : (s.finish b r).block = b := rfl
@[simp] theorem State.finish_reply (s : State) (b : Block) (r : Reply) :
    (s.finish b r).reply = some r := rfl
@[simp] theorem State.finish_config (s : State) (b : Block) (r : Reply) :
    (s.finish b r).config = s.config := rfl
@[simp] theorem State.finish_sampleRate (s : State) (b : Block) (r : Reply) :
    (s.finish b r).sampleRate = s.sampleRate := rfl
@[simp] theorem State.finish_pending (s : State) (b : Block) (r : Reply) :
    (s.finish b r).pending = s.pending := rfl

@[simp] theorem State.raise_block (s : State) (e : Error) : (s.raise e).block = s.block := rfl
@[simp] theorem State.raise_reply (s : State) (e : Error) : (s.raise e).reply = some (.error e) := rfl
@[simp] theorem State.raise_config (s : State) (e : Error) : (s.raise e).config = s.config := rfl
@[simp] theorem State.raise_sampleRate (s : State) (e : Error) :
    (s.raise e).sampleRate = s.sampleRate := rfl
@[simp] theorem State.raise_pending (s : State) (e : Error) : (s.raise e).pending = s.pending := rfl

@[simp] theorem Block.storeReg_voice (b : Block) (i : Fin 16) (v : Byte) :
    (b.storeReg i v).voice = b.voice := rfl
@[simp] theorem Block.storeReg_noise (b : Block) (i : Fin 16) (v : Byte) :
    (b.storeReg i v).noise = b.noise := rfl
@[simp] theorem Block.storeReg_env (b : Block) (i : Fin 16) (v : Byte) :
    (b.storeReg i v).env = b.env := rfl
@[simp] theorem Block.storeReg_voiceAt (b : Block) (i : Fin 16) (v : Byte) (k : Fin 3) :
    (b.storeReg i v).voiceAt k = b.voiceAt k := rfl

@[simp] theorem Block.updateVoice_reg (b : Block) (k : Fin 3) (f : Voice → Voice) :
    (b.updateVoice k f).reg = b.reg := rfl
@[simp] theorem Block.updateVoice_noise (b : Block) (k : Fin 3) (f : Voice → Voice) :
    (b.updateVoice k f).noise = b.noise := rfl
@[simp] theorem Block.updateVoice_env (b : Block) (k : Fin 3) (f : Voice → Voice) :
    (b.updateVoice k f).env = b.env := rfl
@[simp] theorem Block.updateVoice_readReg (b : Block) (k : Fin 3) (f : Voice → Voice) (i : Fin 16) :
    (b.updateVoice k f).readReg i = b.readReg i := rfl

/-- The cell just written reads as the value written. -/
@[simp] theorem Block.readReg_storeReg_same (b : Block) (i : Fin 16) (v : Byte) :
    (b.storeReg i v).readReg i = v := by
  simp [Block.readReg, Block.storeReg, Vector.get_eq_getElem]

/-- A write leaves every other cell alone. -/
theorem Block.readReg_storeReg_other (b : Block) {i j : Fin 16} (v : Byte) (h : j ≠ i) :
    (b.storeReg i v).readReg j = b.readReg j := by
  have : i.val ≠ j.val := fun e => h (Fin.ext e.symm)
  simp [Block.readReg, Block.storeReg, Vector.get_eq_getElem, this]

/-- Both cases of a read after a write. -/
theorem Block.readReg_storeReg (b : Block) (i j : Fin 16) (v : Byte) :
    (b.storeReg i v).readReg j = if j = i then v else b.readReg j := by
  by_cases h : j = i
  · subst h; simp
  · simp [h, Block.readReg_storeReg_other]

@[simp] theorem Block.voiceAt_updateVoice_same (b : Block) (k : Fin 3) (f : Voice → Voice) :
    (b.updateVoice k f).voiceAt k = f (b.voiceAt k) := by
  simp [Block.voiceAt, Block.updateVoice, Vector.get_eq_getElem]

/-- An update of one voice leaves every other voice alone. -/
theorem Block.voiceAt_updateVoice_other (b : Block) {k j : Fin 3} (f : Voice → Voice) (h : j ≠ k) :
    (b.updateVoice k f).voiceAt j = b.voiceAt j := by
  have : k.val ≠ j.val := fun e => h (Fin.ext e.symm)
  simp [Block.voiceAt, Block.updateVoice, Vector.get_eq_getElem, this]

/-- Both cases of a voice after an update. -/
theorem Block.voiceAt_updateVoice (b : Block) (k j : Fin 3) (f : Voice → Voice) :
    (b.updateVoice k f).voiceAt j = if j = k then f (b.voiceAt k) else b.voiceAt j := by
  by_cases h : j = k
  · subst h; simp
  · simp [h, Block.voiceAt_updateVoice_other]

/-- Two blocks with the same voices, one by one, have the same voice vector. -/
theorem voices_ext {b c : Block} (h : ∀ k, b.voiceAt k = c.voiceAt k) : b.voice = c.voice := by
  apply Vector.ext
  intro i hi
  simpa [Block.voiceAt, Vector.get_eq_getElem] using h ⟨i, hi⟩

/-- Two blocks with the same cells, one by one, have the same bank. -/
theorem bank_ext {b c : Block} (h : ∀ i, b.readReg i = c.readReg i) : b.reg = c.reg := by
  apply Vector.ext
  intro i hi
  simpa [Block.readReg, Vector.get_eq_getElem] using h ⟨i, hi⟩

@[simp] theorem Block.reset_readReg (i : Fin 16) : Block.reset.readReg i = 0 := by
  revert i; decide

@[simp] theorem Block.reset_voiceAt (k : Fin 3) : Block.reset.voiceAt k = Voice.reset := by
  revert k; decide

end Sys2Proof.Machine
end

