-- ==== Sys2Proof/Laws/Ticks.lean ====
section
/-! SUPPORT. What one tick does to each part of the block, and what each generator's tick keeps. -/

namespace Sys2Proof.Machine

@[simp] theorem tick_reg (c : Config) (b : Block) : (tick c b).reg = b.reg := rfl
@[simp] theorem tick_readReg (c : Config) (b : Block) (i : Fin 16) :
    (tick c b).readReg i = b.readReg i := rfl
@[simp] theorem tick_noise (c : Config) (b : Block) : (tick c b).noise = noiseTick b.noise := rfl
@[simp] theorem tick_env (c : Config) (b : Block) :
    (tick c b).env = envelopeTick c.envOutputRule b.env := rfl
/-- Each voice's tone counter advances from its own state alone (R183). -/
@[simp] theorem tick_voiceAt (c : Config) (b : Block) (k : Fin 3) :
    (tick c b).voiceAt k = toneTick (b.voiceAt k) := by
  fin_cases k <;> simp [tick, Block.voiceAt_updateVoice] <;> rfl

@[simp] theorem toneTick_period (v : Voice) : (toneTick v).period = v.period := by
  unfold toneTick; split <;> rfl
@[simp] theorem toneTick_volume (v : Voice) : (toneTick v).volume = v.volume := by
  unfold toneTick; split <;> rfl
@[simp] theorem toneTick_envelopeEnabled (v : Voice) :
    (toneTick v).envelopeEnabled = v.envelopeEnabled := by
  unfold toneTick; split <;> rfl
@[simp] theorem toneTick_noiseEnabled (v : Voice) : (toneTick v).noiseEnabled = v.noiseEnabled := by
  unfold toneTick; split <;> rfl
@[simp] theorem toneTick_toneEnabled (v : Voice) : (toneTick v).toneEnabled = v.toneEnabled := by
  unfold toneTick; split <;> rfl

@[simp] theorem noiseTick_period (n : Noise) : (noiseTick n).period = n.period := by
  unfold noiseTick; split <;> rfl
/-- A noise tick leaves the LFSR alone or shifts it once. -/
theorem noiseTick_lfsr (n : Noise) :
    (noiseTick n).lfsr = if n.period ≤ n.counter + 1 then lfsrNext n.lfsr else n.lfsr := by
  unfold noiseTick; split <;> rfl

/-- A noise tick leaves the counter below the period. -/
theorem noiseTick_counter (n : Noise) :
    (noiseTick n).counter = if n.period ≤ n.counter + 1 then 0 else n.counter + 1 := by
  unfold noiseTick; split <;> rfl

/-- The shift on numbers: half, and bits 0 and 3 to bit 16 (R191). -/
theorem lfsrNext_toNat (l : LfsrWord) :
    (lfsrNext l).toNat = l.toNat / 2 + 65536 * ((l.toNat + l.toNat / 8) % 2) := by
  have hl := l.isLt
  have hfb : (l.getLsbD 0 ^^ l.getLsbD 3).toNat = (l.toNat + l.toNat / 8) % 2 := by
    simp only [BitVec.getLsbD, Nat.testBit_eq_decide_div_mod_eq]
    by_cases h0 : l.toNat % 2 = 1 <;> by_cases h3 : l.toNat / 8 % 2 = 1 <;> simp [h0, h3] <;> omega
  have hlow : (l.toNat + l.toNat / 8) % 2 < 2 := Nat.mod_lt _ (by decide)
  simp only [lfsrNext, BitVec.toNat_or, BitVec.toNat_ushiftRight, BitVec.toNat_shiftLeft,
    BitVec.toNat_setWidth, BitVec.toNat_ofBool, hfb]
  rw [Nat.mod_eq_of_lt (by omega), Nat.shiftLeft_eq, Nat.mod_eq_of_lt (by omega), Nat.or_comm,
    ← Nat.shiftLeft_eq, ← Nat.shiftLeft_add_eq_or_of_lt (by simp [Nat.shiftRight_eq_div_pow]; omega),
    Nat.shiftLeft_eq, Nat.shiftRight_eq_div_pow]
  omega

/-- `topPolicy` and `bottomPolicy` write the phase, `attack` and `holding` only. -/
theorem topPolicy_fields (e : Envelope) :
    (topPolicy e).period = e.period ∧ (topPolicy e).counter = e.counter ∧
    (topPolicy e).continueFlag = e.continueFlag ∧ (topPolicy e).alternate = e.alternate ∧
    (topPolicy e).hold = e.hold ∧ (topPolicy e).output = e.output := by
  unfold topPolicy; split <;> [skip; split] <;> simp

theorem bottomPolicy_fields (e : Envelope) :
    (bottomPolicy e).period = e.period ∧ (bottomPolicy e).counter = e.counter ∧
    (bottomPolicy e).continueFlag = e.continueFlag ∧ (bottomPolicy e).alternate = e.alternate ∧
    (bottomPolicy e).hold = e.hold ∧ (bottomPolicy e).output = e.output := by
  unfold bottomPolicy; split <;> [skip; split] <;> simp

/-- Moving the phase writes the phase, `attack` and `holding` only. -/
theorem movePhase_fields (e : Envelope) :
    (movePhase e).period = e.period ∧ (movePhase e).counter = e.counter ∧
    (movePhase e).continueFlag = e.continueFlag ∧ (movePhase e).alternate = e.alternate ∧
    (movePhase e).hold = e.hold ∧ (movePhase e).output = e.output := by
  unfold movePhase
  split
  · exact topPolicy_fields e
  · split
    · exact bottomPolicy_fields e
    · simp

/-- A step writes the phase, `attack`, `holding` and the output only. -/
theorem envelopeStep_fields (rule : EnvOutputRule) (e : Envelope) :
    (envelopeStep rule e).period = e.period ∧ (envelopeStep rule e).counter = e.counter ∧
    (envelopeStep rule e).continueFlag = e.continueFlag ∧
    (envelopeStep rule e).alternate = e.alternate ∧ (envelopeStep rule e).hold = e.hold := by
  have h := movePhase_fields e
  simp only [envelopeStep]
  split <;> split <;> (try split) <;> simp [copyPhase, h]

/-- A tick keeps the period and every shape flag but `attack`. -/
theorem envelopeTick_fields (rule : EnvOutputRule) (e : Envelope) :
    (envelopeTick rule e).period = e.period ∧
    (envelopeTick rule e).continueFlag = e.continueFlag ∧
    (envelopeTick rule e).alternate = e.alternate ∧ (envelopeTick rule e).hold = e.hold := by
  have h := envelopeStep_fields rule { e with counter := 0 }
  unfold envelopeTick envelopeCount
  split
  · simp
  · dsimp only
    split <;> split <;> simp_all [copyPhase]

end Sys2Proof.Machine
end

