-- ==== Sys2Proof/Laws/Fields.lean ====
section
/-! SUPPORT. The register fields on natural numbers: what the bit operations of Operands.lean and
Flags.lean compute. -/

namespace Sys2Proof.Machine

/-- A bit of a byte is a digit of its number. -/
theorem getLsbD_eq_digit (x : Byte) (n : ℕ) : x.getLsbD n = decide (x.toNat / 2 ^ n % 2 = 1) := by
  rw [BitVec.getLsbD, Nat.testBit_eq_decide_div_mod_eq]

/-- An active-low bit. -/
theorem not_getLsbD_eq_digit (x : Byte) (n : ℕ) :
    (!x.getLsbD n) = decide (x.toNat / 2 ^ n % 2 = 0) := by
  rw [getLsbD_eq_digit, ← decide_not, decide_eq_decide]
  omega

/-- The high part of a pair counts 256. -/
theorem append_byte_toNat {n : ℕ} (x : BitVec n) (y : Byte) :
    (x ++ y).toNat = x.toNat * 256 + y.toNat := by
  have := y.isLt
  rw [BitVec.toNat_append, ← Nat.shiftLeft_add_eq_or_of_lt (by omega), Nat.shiftLeft_eq]

/-- R147 on numbers: the coarse field counts 256. -/
theorem tonePeriod_eq (b : Block) (k : Fin 3) :
    tonePeriod b k = max 1 ((toneCoarse b k).toNat * 256 + (toneFine b k).toNat) := by
  rw [tonePeriod, append_byte_toNat]

/-- R154 on numbers. -/
theorem noisePeriod_eq (b : Block) : noisePeriod b = max 1 ((b.readReg 6).toNat % 32 * 2) := by
  simp [noisePeriod]

/-- R159 on numbers. -/
theorem envPeriod_eq (b : Block) :
    envPeriod b = max 1 (((b.readReg 12).toNat * 256 + (b.readReg 11).toNat) * 2) := by
  rw [envPeriod, append_byte_toNat]

/-- R60: a composed tone period is in 1..4095. -/
theorem tonePeriod_range (b : Block) (k : Fin 3) : 1 ≤ tonePeriod b k ∧ tonePeriod b k ≤ 4095 := by
  rw [tonePeriod_eq]
  have := (toneCoarse b k).isLt
  have := (toneFine b k).isLt
  omega

/-- R60: a composed noise period is 1 or an even number to 62. -/
theorem noisePeriod_range (b : Block) :
    noisePeriod b = 1 ∨ (2 ≤ noisePeriod b ∧ noisePeriod b ≤ 62 ∧ noisePeriod b % 2 = 0) := by
  rw [noisePeriod_eq]
  omega

/-- R60: a composed envelope period is 1 or an even number to 131070. -/
theorem envPeriod_range (b : Block) :
    envPeriod b = 1 ∨ (2 ≤ envPeriod b ∧ envPeriod b ≤ 131070 ∧ envPeriod b % 2 = 0) := by
  rw [envPeriod_eq]
  have := (b.readReg 12).isLt
  have := (b.readReg 11).isLt
  omega

end Sys2Proof.Machine
end

