-- ==== Sys2Proof/Laws/Writes.lean ====
section
/-! SUPPORT. What the shared operations of a register write can do: the value check, the masked store,
and the decode of each row. -/

namespace Sys2Proof.Machine

/-- The value check as a proposition. -/
theorem valueAccepted_iff (policy : WritePolicy) (value : Int) :
    valueAccepted policy value = true ↔ policy = .lenient ∨ (0 ≤ value ∧ value ≤ 255) := by
  cases policy <;> simp [valueAccepted]

/-- The mask takes the value mod 256. -/
theorem maskByte_toNat (value : Int) : ((maskByte value).toNat : Int) = value % 256 := by
  simp [maskByte, BitVec.toNat_ofInt]
  omega

/-- Masking the byte a cell already holds gives that byte. -/
@[simp] theorem maskByte_toNat_cast (b : Byte) : maskByte (b.toNat : Int) = b := by
  simp [maskByte]

/-- A write either stores and decodes, or raises `InvalidValue`: nothing else. -/
theorem writeCell_eq (i : Fin 16) (value : Int) (derive : Block → Block) (s : State) :
    writeCell i value derive s =
      if valueAccepted s.config.writePolicy value = true then
        s.finish (derive (s.block.storeReg i (maskByte value))) .done
      else s.raise (.invalidValue value) := rfl

@[simp] theorem writeCell_config (i : Fin 16) (value : Int) (d : Block → Block) (s : State) :
    (writeCell i value d s).config = s.config := by
  unfold writeCell; split <;> rfl
@[simp] theorem writeCell_sampleRate (i : Fin 16) (value : Int) (d : Block → Block) (s : State) :
    (writeCell i value d s).sampleRate = s.sampleRate := by
  unfold writeCell; split <;> rfl
@[simp] theorem writeCell_pending (i : Fin 16) (value : Int) (d : Block → Block) (s : State) :
    (writeCell i value d s).pending = s.pending := by
  unfold writeCell; split <;> rfl

/-- The block after a write is the decoded one or the old one. -/
theorem writeCell_block (i : Fin 16) (value : Int) (d : Block → Block) (s : State) :
    (writeCell i value d s).block = d (s.block.storeReg i (maskByte value)) ∨
      (writeCell i value d s).block = s.block := by
  unfold writeCell; split <;> simp

@[simp] theorem deriveTonePeriod_readReg (k : Fin 3) (b : Block) (i : Fin 16) :
    (deriveTonePeriod k b).readReg i = b.readReg i := rfl
@[simp] theorem deriveTonePeriod_noise (k : Fin 3) (b : Block) :
    (deriveTonePeriod k b).noise = b.noise := rfl
@[simp] theorem deriveTonePeriod_env (k : Fin 3) (b : Block) :
    (deriveTonePeriod k b).env = b.env := rfl
/-- The decode of a tone register touches one voice, and its period only. -/
theorem deriveTonePeriod_voiceAt (k j : Fin 3) (b : Block) :
    (deriveTonePeriod k b).voiceAt j =
      if j = k then { b.voiceAt k with period := tonePeriod b k } else b.voiceAt j :=
  Block.voiceAt_updateVoice ..

@[simp] theorem deriveNoisePeriod_readReg (b : Block) (i : Fin 16) :
    (deriveNoisePeriod b).readReg i = b.readReg i := rfl
@[simp] theorem deriveNoisePeriod_voiceAt (b : Block) (k : Fin 3) :
    (deriveNoisePeriod b).voiceAt k = b.voiceAt k := rfl
@[simp] theorem deriveNoisePeriod_env (b : Block) : (deriveNoisePeriod b).env = b.env := rfl

/-- The decode of the noise register touches the period only. -/
theorem deriveNoisePeriod_noise (b : Block) :
    (deriveNoisePeriod b).noise = { b.noise with period := noisePeriod b } := rfl

@[simp] theorem deriveMixer_readReg (b : Block) (i : Fin 16) :
    (deriveMixer b).readReg i = b.readReg i := rfl
@[simp] theorem deriveMixer_noise (b : Block) : (deriveMixer b).noise = b.noise := rfl
@[simp] theorem deriveMixer_env (b : Block) : (deriveMixer b).env = b.env := rfl
/-- The decode of the mixer register touches the two enables of every voice. -/
@[simp] theorem deriveMixer_voiceAt (b : Block) (k : Fin 3) :
    (deriveMixer b).voiceAt k =
      { b.voiceAt k with toneEnabled := toneEnable b k, noiseEnabled := noiseEnable b k } := by
  fin_cases k <;> simp [deriveMixer, deriveEnables, Block.voiceAt_updateVoice] <;>
    exact ⟨rfl, rfl⟩

@[simp] theorem deriveAmplitude_readReg (k : Fin 3) (b : Block) (i : Fin 16) :
    (deriveAmplitude k b).readReg i = b.readReg i := rfl
@[simp] theorem deriveAmplitude_noise (k : Fin 3) (b : Block) :
    (deriveAmplitude k b).noise = b.noise := rfl
@[simp] theorem deriveAmplitude_env (k : Fin 3) (b : Block) :
    (deriveAmplitude k b).env = b.env := rfl
/-- The decode of an amplitude register touches one voice. -/
theorem deriveAmplitude_voiceAt (k j : Fin 3) (b : Block) :
    (deriveAmplitude k b).voiceAt j =
      if j = k then { b.voiceAt k with volume := directLevel b k, envelopeEnabled := envelopeEnable b k }
      else b.voiceAt j :=
  Block.voiceAt_updateVoice ..

@[simp] theorem deriveEnvPeriod_readReg (b : Block) (i : Fin 16) :
    (deriveEnvPeriod b).readReg i = b.readReg i := rfl
@[simp] theorem deriveEnvPeriod_voiceAt (b : Block) (k : Fin 3) :
    (deriveEnvPeriod b).voiceAt k = b.voiceAt k := rfl
@[simp] theorem deriveEnvPeriod_noise (b : Block) : (deriveEnvPeriod b).noise = b.noise := rfl

/-- The decode of an envelope period register touches the period only. -/
theorem deriveEnvPeriod_env (b : Block) :
    (deriveEnvPeriod b).env = { b.env with period := envPeriod b } := rfl

@[simp] theorem deriveShape_readReg (b : Block) (i : Fin 16) :
    (deriveShape b).readReg i = b.readReg i := rfl
@[simp] theorem deriveShape_voiceAt (b : Block) (k : Fin 3) :
    (deriveShape b).voiceAt k = b.voiceAt k := rfl
@[simp] theorem deriveShape_noise (b : Block) : (deriveShape b).noise = b.noise := rfl

/-- The decode of the shape register keeps the envelope's period and nothing else of it (R162). -/
theorem deriveShape_env (b : Block) :
    (deriveShape b).env =
      { period := b.env.period, counter := 0, continueFlag := shapeContinue b,
        attack := shapeAttack b, alternate := shapeAlternate b, hold := shapeHold b, phase := 0,
        output := if shapeAttack b then 0 else 15, holding := false } := rfl

@[simp] theorem deriveNothing_eq (b : Block) : deriveNothing b = b := rfl

end Sys2Proof.Machine
end

