-- ==== Sys2Proof/Laws/Execution.lean ====
section
/-! SUPPORT. What an instruction, a request and a step can answer: the lemmas later proofs cite instead of
unfolding exec. -/

namespace Sys2Proof.Machine

/-- The decode of the row of an index (the table of rule R145). -/
def deriveOf (i : Fin 16) (b : Block) : Block :=
  match i.val with
  | 0 => deriveTonePeriod 0 b
  | 1 => deriveTonePeriod 0 b
  | 2 => deriveTonePeriod 1 b
  | 3 => deriveTonePeriod 1 b
  | 4 => deriveTonePeriod 2 b
  | 5 => deriveTonePeriod 2 b
  | 6 => deriveNoisePeriod b
  | 7 => deriveMixer b
  | 8 => deriveAmplitude 0 b
  | 9 => deriveAmplitude 1 b
  | 10 => deriveAmplitude 2 b
  | 11 => deriveEnvPeriod b
  | 12 => deriveEnvPeriod b
  | 13 => deriveShape b
  | _ => b

/-- Every register write is the common part with the decode of its row. -/
theorem exec_ofWrite (i : Fin 16) (value : Int) (s : State) :
    exec (Instr.ofWrite i value) s = .next (writeCell i value (deriveOf i) s) := by
  fin_cases i <;> rfl

/-- A register write, a reset, a sample or a read: an instruction is one of the four. -/
theorem instr_shape (i : Instr) :
    (∃ index value, i = Instr.ofWrite index value) ∨ i = .reset ∨ i = .sample ∨
      ∃ index, i = .rd index := by
  cases i with
  | wrR0 v => exact .inl ⟨0, v, rfl⟩
  | wrR1 v => exact .inl ⟨1, v, rfl⟩
  | wrR2 v => exact .inl ⟨2, v, rfl⟩
  | wrR3 v => exact .inl ⟨3, v, rfl⟩
  | wrR4 v => exact .inl ⟨4, v, rfl⟩
  | wrR5 v => exact .inl ⟨5, v, rfl⟩
  | wrR6 v => exact .inl ⟨6, v, rfl⟩
  | wrR7 v => exact .inl ⟨7, v, rfl⟩
  | wrR8 v => exact .inl ⟨8, v, rfl⟩
  | wrR9 v => exact .inl ⟨9, v, rfl⟩
  | wrR10 v => exact .inl ⟨10, v, rfl⟩
  | wrR11 v => exact .inl ⟨11, v, rfl⟩
  | wrR12 v => exact .inl ⟨12, v, rfl⟩
  | wrR13 v => exact .inl ⟨13, v, rfl⟩
  | wrR14 v => exact .inl ⟨14, v, rfl⟩
  | wrR15 v => exact .inl ⟨15, v, rfl⟩
  | reset => exact .inr (.inl rfl)
  | sample => exact .inr (.inr (.inl rfl))
  | rd v => exact .inr (.inr (.inr ⟨v, rfl⟩))

theorem exec_reset (s : State) : exec .reset s = .next (s.finish Block.reset .done) := rfl

theorem exec_sample (s : State) :
    exec .sample s = .next (s.finish (tick s.config s.block)
      (.sample (mix s.config (tick s.config s.block)))) := rfl

theorem exec_rd_inside (index : Fin 16) (s : State) :
    exec (.rd index.val) s = .next (s.finish s.block (.byte (s.block.readReg index))) := by
  have h : (0 : Int) ≤ index.val ∧ (index.val : Int) ≤ 15 := by omega
  have e : Fin.ofNat 16 (index.val : Int).toNat = index := by
    ext; simp [Fin.ofNat, Nat.mod_eq_of_lt index.isLt]
  simp only [exec, execRd, if_pos h, e]

theorem exec_rd_outside (index : Int) (s : State) (h : ¬(0 ≤ index ∧ index ≤ 15)) :
    exec (.rd index) s = .next (s.raise (.outOfRange index)) := by
  simp [exec, execRd, h]

/-- What an instruction can do, in full: a write stores and decodes or is turned away, a reset, a
sample, a read of a cell or a read turned away. -/
theorem exec_cases {i : Instr} {s t : State} (h : exec i s = .next t) :
    (∃ index value, i = Instr.ofWrite index value ∧ valueAccepted s.config.writePolicy value = true ∧
      t = s.finish (deriveOf index (s.block.storeReg index (maskByte value))) .done) ∨
    (∃ index value, i = Instr.ofWrite index value ∧
      valueAccepted s.config.writePolicy value = false ∧ t = s.raise (.invalidValue value)) ∨
    (i = .reset ∧ t = s.finish Block.reset .done) ∨
    (i = .sample ∧ t = s.finish (tick s.config s.block)
      (.sample (mix s.config (tick s.config s.block)))) ∨
    (∃ index : Fin 16, i = .rd index.val ∧
      t = s.finish s.block (.byte (s.block.readReg index))) ∨
    (∃ index, i = .rd index ∧ ¬(0 ≤ index ∧ index ≤ 15) ∧ t = s.raise (.outOfRange index)) := by
  obtain ⟨index, value, rfl⟩ | rfl | rfl | ⟨index, rfl⟩ := instr_shape i
  · rw [exec_ofWrite, writeCell_eq] at h
    split at h
    · exact .inl ⟨index, value, rfl, ‹_›, by injection h with h; exact h.symm⟩
    · next hv => exact .inr (.inl ⟨index, value, rfl, Bool.eq_false_iff.mpr hv, by injection h with h; exact h.symm⟩)
  · rw [exec_reset] at h
    exact .inr (.inr (.inl ⟨rfl, by injection h with h; exact h.symm⟩))
  · rw [exec_sample] at h
    exact .inr (.inr (.inr (.inl ⟨rfl, by injection h with h; exact h.symm⟩)))
  · by_cases hi : 0 ≤ index ∧ index ≤ 15
    · obtain ⟨n, rfl⟩ := Int.eq_ofNat_of_zero_le hi.1
      have hn : n < 16 := by omega
      have e := exec_rd_inside ⟨n, hn⟩ s
      refine .inr (.inr (.inr (.inr (.inl ⟨⟨n, hn⟩, rfl, ?_⟩))))
      rw [e] at h
      injection h with h; exact h.symm
    · rw [exec_rd_outside index s hi] at h
      exact .inr (.inr (.inr (.inr (.inr ⟨index, rfl, hi, by injection h with h; exact h.symm⟩))))

/-- Every instruction answers a next state: its errors are replies (R270). -/
theorem exec_next (i : Instr) (s : State) : ∃ t, exec i s = .next t := by
  obtain ⟨index, value, rfl⟩ | rfl | rfl | ⟨index, rfl⟩ := instr_shape i
  · exact ⟨_, exec_ofWrite index value s⟩
  · exact ⟨_, rfl⟩
  · exact ⟨_, rfl⟩
  · by_cases h : 0 ≤ index ∧ index ≤ 15
    · simp [exec, execRd, h]
    · exact ⟨_, exec_rd_outside index s h⟩

/-- What a request can do when it answers a next state: an instruction, a write to no cell, a batch of
samples, or a construction. -/
theorem serve_cases {r : Request} {s t : State} (h : serve r s = .next t) :
    (∃ i, exec i s = .next t) ∨ (∃ index, t = s.raise (.outOfRange index)) ∨
    (∃ bufferLength count, r = .issue (.processSamples bufferLength count) ∧ count ≤ bufferLength ∧
      t = s.finish (generateMany s.config count s.block).1
        (.samples (generateMany s.config count s.block).2)) ∨
    (∃ rate, r = .issue (.construct rate) ∧ rate ≠ 0 ∧
      t = { s with sampleRate := rate }.finish Block.reset .done) := by
  match r, h with
  | .overlapping _ _, h => simp [serve] at h
  | .issue (.command w), h =>
    simp only [serve, perform, runCommand] at h
    split at h
    · exact .inl ⟨_, h⟩
    · simp at h
  | .issue (.writeRegister index value), h =>
    simp only [serve, perform, callWrite] at h
    split at h
    · exact .inl ⟨_, h⟩
    · exact .inr (.inl ⟨index, by injection h with h; exact h.symm⟩)
  | .issue (.readRegister index), h => exact .inl ⟨.rd index, h⟩
  | .issue .reset, h => exact .inl ⟨.reset, h⟩
  | .issue .generateSample, h => exact .inl ⟨.sample, h⟩
  | .issue (.processSamples l n), h =>
    simp only [serve, perform, processSamples] at h
    split at h
    · simp at h
    · next hl =>
      exact .inr (.inr (.inl ⟨l, n, rfl, by omega, by injection h with h; exact h.symm⟩))
  | .issue (.construct rate), h =>
    simp only [serve, perform, construct] at h
    split at h
    · simp at h
    · next hr => exact .inr (.inr (.inr ⟨rate, rfl, hr, by injection h with h; exact h.symm⟩))

/-- A step with nothing pending, and a step with a request. -/
theorem step_idle {s : State} (h : s.pending = []) : step s = .next s := by
  simp [step, serveNext, h]

theorem step_request {s : State} {r : Request} {rest : List Request} (h : s.pending = r :: rest) :
    step s = serve r { s with pending := rest } := by
  simp [step, serveNext, h]

/-- Putting a row's word before everything pending makes it the next thing a step runs. -/
theorem step_withFetchWord (s : State) (nbits w : Nat) :
    step (s.withFetchWord nbits w) = runCommand (tableWord nbits w) s := rfl

end Sys2Proof.Machine
end

