-- ==== Sys2Proof/Laws/Samples.lean ====
section
/-! SUPPORT. Repeated samples are repeated ticks, each part of the block on its own. -/

namespace Sys2Proof.Machine

/-- The first sample is one tick. -/
theorem sampleTimes_succ (n : ℕ) (s : State) :
    sampleTimes (n + 1) s = sampleTimes n (s.finish (tick s.config s.block)
      (.sample (mix s.config (tick s.config s.block)))) := rfl

/-- Repeated samples always complete, on the block ticked as often, with all else but the reply
kept. -/
theorem sampleTimes_eq (n : ℕ) (s : State) :
    ∃ t, sampleTimes n s = some t ∧ t.block = (tick s.config)^[n] s.block ∧ t.config = s.config ∧
      t.sampleRate = s.sampleRate ∧ t.pending = s.pending := by
  induction n generalizing s with
  | zero => exact ⟨s, rfl, rfl, rfl, rfl, rfl⟩
  | succ n ih =>
    obtain ⟨t, h, hb, hc, hr, hp⟩ := ih (s.finish (tick s.config s.block)
      (.sample (mix s.config (tick s.config s.block))))
    exact ⟨t, h, hb, hc, hr, hp⟩

/-- The last of `n + 1` samples is the mix of the block it leaves. -/
theorem sampleTimes_reply (n : ℕ) (s t : State) (h : sampleTimes (n + 1) s = some t) :
    t.reply = some (.sample (mix t.config t.block)) := by
  induction n generalizing s with
  | zero => cases h; rfl
  | succ n ih => exact ih _ h

/-- Each voice ticks on its own. -/
theorem iterate_tick_voiceAt (c : Config) (n : ℕ) (b : Block) (k : Fin 3) :
    ((tick c)^[n] b).voiceAt k = toneTick^[n] (b.voiceAt k) := by
  induction n generalizing b with
  | zero => rfl
  | succ n ih => simp only [Function.iterate_succ_apply, ih, tick_voiceAt]

/-- The noise generator ticks on its own. -/
theorem iterate_tick_noise (c : Config) (n : ℕ) (b : Block) :
    ((tick c)^[n] b).noise = noiseTick^[n] b.noise := by
  induction n generalizing b with
  | zero => rfl
  | succ n ih => simp only [Function.iterate_succ_apply, ih, tick_noise]

/-- The envelope ticks on its own. -/
theorem iterate_tick_env (c : Config) (n : ℕ) (b : Block) :
    ((tick c)^[n] b).env = (envelopeTick c.envOutputRule)^[n] b.env := by
  induction n generalizing b with
  | zero => rfl
  | succ n ih => simp only [Function.iterate_succ_apply, ih, tick_env]

/-- No tick touches the bank. -/
theorem iterate_tick_readReg (c : Config) (n : ℕ) (b : Block) (i : Fin 16) :
    ((tick c)^[n] b).readReg i = b.readReg i := by
  induction n generalizing b with
  | zero => rfl
  | succ n ih => simp only [Function.iterate_succ_apply, ih, tick_readReg]

/-- The block after a batch is the block ticked as often (R251). -/
theorem generateMany_block (c : Config) (n : ℕ) (b : Block) :
    (generateMany c n b).1 = (tick c)^[n] b := by
  induction n generalizing b with
  | zero => rfl
  | succ n ih => exact ih (tick c b)

/-- A batch returns one sample a tick. -/
theorem generateMany_length (c : Config) (n : ℕ) (b : Block) :
    (generateMany c n b).2.length = n := by
  induction n generalizing b with
  | zero => rfl
  | succ n ih => simp [generateMany, ih]

end Sys2Proof.Machine
end

