-- ==== Sys2Proof/Laws/Mix.lean ====
section
/-! SUPPORT. What the mix reads, and the parts of its exact value. -/

namespace Sys2Proof.Machine

/-- The gate of the model is the gate of rules R234 and R235. -/
theorem gate_iff (v : Voice) (n : Noise) : gate v n = true ↔ GateOpen v n := by
  rcases v with ⟨_, _, o, _, _, ne, te⟩
  cases ne <;> cases te <;> simp [gate, GateOpen]

/-- The level index of the model is the index of rule R236. -/
theorem levelIndex_val (c : Config) (v : Voice) (e : Envelope) :
    (levelIndex c v e).val = volumeIndex c v e := by
  unfold levelIndex volumeIndex envelopeIndex
  cases v.envelopeEnabled
  · simp
  · cases c.envLevelRule <;> simp

/-- The binary64 volume table, entry by entry (R231). -/
theorem volume64_eq (c : Config) (i : Fin 32) : volume64 c i = binaryLevel c i.val := by
  unfold volume64 binaryLevel
  by_cases h : i.val = 0
  · simp [h]
  · have : i.val - 1 < 31 := by omega
    simp [h, half64, List.getD_eq_getElem?_getD, this]

/-- The mix reads what the voices contribute, and nothing else of the block. -/
theorem mix_congr (c : Config) {b b' : Block} (h : ∀ k, contribution c b k = contribution c b' k) :
    mix c b = mix c b' := by
  simp only [mix, voiceSum, voiceSum64, addVoice, addVoice64, h]

/-- Levels add as reals. -/
theorem Level.value_add (x y : Level) : (x.add y).value = x.value + y.value := by
  simp only [Level.value, Level.add]
  push_cast
  ring

@[simp] theorem Level.value_zero : Level.zero.value = 0 := by
  simp [Level.value, Level.zero]

end Sys2Proof.Machine
end

