-- ==== Sys2Proof/Laws/PerInstr.lean ====
section
/-! SUPPORT. Every instruction's word lies in its row of spec/opcode_table.json: the bits under the row's
`mask` are its `match`. -/

namespace Sys2Proof.Laws

/-- The `mask` of an instruction's row. -/
def EncodeRow.mask (i : Instr) : CommandWord :=
  match i with
  | .wrR0 _ => 0xFF00
  | .wrR1 _ => 0xFF00
  | .wrR2 _ => 0xFF00
  | .wrR3 _ => 0xFF00
  | .wrR4 _ => 0xFF00
  | .wrR5 _ => 0xFF00
  | .wrR6 _ => 0xFF00
  | .wrR7 _ => 0xFF00
  | .wrR8 _ => 0xFF00
  | .wrR9 _ => 0xFF00
  | .wrR10 _ => 0xFF00
  | .wrR11 _ => 0xFF00
  | .wrR12 _ => 0xFF00
  | .wrR13 _ => 0xFF00
  | .wrR14 _ => 0xFF00
  | .wrR15 _ => 0xFF00
  | .reset => 0xFFFF
  | .sample => 0xFFFF
  | .rd _ => 0xF0FF

/-- The `match` of an instruction's row. -/
def EncodeRow.pattern (i : Instr) : CommandWord :=
  match i with
  | .wrR0 _ => 0x0000
  | .wrR1 _ => 0x0100
  | .wrR2 _ => 0x0200
  | .wrR3 _ => 0x0300
  | .wrR4 _ => 0x0400
  | .wrR5 _ => 0x0500
  | .wrR6 _ => 0x0600
  | .wrR7 _ => 0x0700
  | .wrR8 _ => 0x0800
  | .wrR9 _ => 0x0900
  | .wrR10 _ => 0x0A00
  | .wrR11 _ => 0x0B00
  | .wrR12 _ => 0x0C00
  | .wrR13 _ => 0x0D00
  | .wrR14 _ => 0x0E00
  | .wrR15 _ => 0x0F00
  | .reset => 0x1000
  | .sample => 0x2000
  | .rd _ => 0x3000

/-- The word of `i` is a word of the row of `i`. -/
def EncodeRow.Statement (i : Instr) : Prop :=
  encode i &&& EncodeRow.mask i = EncodeRow.pattern i

/-- The high byte of a write's word is its index. -/
theorem encodeWrite_and_mask (index : BitVec 4) (value : Int) :
    encodeWrite index value &&& 0xFF00 = commandWord 0 index 0 := by
  unfold encodeWrite
  generalize BitVec.ofInt 8 value = data
  revert index data
  decide +kernel

/-- All but the index field of a read's word is fixed. -/
theorem commandWord_read_and_mask (index : BitVec 4) :
    commandWord 3 index 0 &&& 0xF0FF = 0x3000 := by
  revert index
  decide +kernel

theorem EncodeRow.wrR0 (value : Int) : EncodeRow.Statement (.wrR0 value) :=
  encodeWrite_and_mask 0 value

theorem EncodeRow.wrR1 (value : Int) : EncodeRow.Statement (.wrR1 value) :=
  encodeWrite_and_mask 1 value

theorem EncodeRow.wrR2 (value : Int) : EncodeRow.Statement (.wrR2 value) :=
  encodeWrite_and_mask 2 value

theorem EncodeRow.wrR3 (value : Int) : EncodeRow.Statement (.wrR3 value) :=
  encodeWrite_and_mask 3 value

theorem EncodeRow.wrR4 (value : Int) : EncodeRow.Statement (.wrR4 value) :=
  encodeWrite_and_mask 4 value

theorem EncodeRow.wrR5 (value : Int) : EncodeRow.Statement (.wrR5 value) :=
  encodeWrite_and_mask 5 value

theorem EncodeRow.wrR6 (value : Int) : EncodeRow.Statement (.wrR6 value) :=
  encodeWrite_and_mask 6 value

theorem EncodeRow.wrR7 (value : Int) : EncodeRow.Statement (.wrR7 value) :=
  encodeWrite_and_mask 7 value

theorem EncodeRow.wrR8 (value : Int) : EncodeRow.Statement (.wrR8 value) :=
  encodeWrite_and_mask 8 value

theorem EncodeRow.wrR9 (value : Int) : EncodeRow.Statement (.wrR9 value) :=
  encodeWrite_and_mask 9 value

theorem EncodeRow.wrR10 (value : Int) : EncodeRow.Statement (.wrR10 value) :=
  encodeWrite_and_mask 10 value

theorem EncodeRow.wrR11 (value : Int) : EncodeRow.Statement (.wrR11 value) :=
  encodeWrite_and_mask 11 value

theorem EncodeRow.wrR12 (value : Int) : EncodeRow.Statement (.wrR12 value) :=
  encodeWrite_and_mask 12 value

theorem EncodeRow.wrR13 (value : Int) : EncodeRow.Statement (.wrR13 value) :=
  encodeWrite_and_mask 13 value

theorem EncodeRow.wrR14 (value : Int) : EncodeRow.Statement (.wrR14 value) :=
  encodeWrite_and_mask 14 value

theorem EncodeRow.wrR15 (value : Int) : EncodeRow.Statement (.wrR15 value) :=
  encodeWrite_and_mask 15 value

theorem EncodeRow.reset : EncodeRow.Statement .reset := rfl

theorem EncodeRow.sample : EncodeRow.Statement .sample := rfl

theorem EncodeRow.rd (index : Int) : EncodeRow.Statement (.rd index) :=
  commandWord_read_and_mask (BitVec.ofInt 4 index)

end Sys2Proof.Laws
end

