-- ==== Sys2Proof/Tests/Slice0.lean ====
section
/-! SUPPORT. Tests and witnesses. The expected words come from rules R112 to R117, the expected values from
the examples of the rules of 40 to 45 and from 95_test_vectors.md. -/

namespace Sys2Proof.Tests

open Sys2Proof.Machine

/-! ### Helpers -/

/-- The state an instruction leaves, or the state before it where it stops. -/
def after (i : Instr) (s : State) : State :=
  match exec i s with
  | .next t => t
  | .fault _ => s
  | .refused _ => s

/-- `s` under the lenient write policy. -/
def lenient (s : State) : State := { s with config := { s.config with writePolicy := .lenient } }

/-- `s` under another reading of the envelope output. -/
def withRule (rule : EnvOutputRule) (s : State) : State :=
  { s with config := { s.config with envOutputRule := rule } }

/-- `s` with one request issued. -/
def asks (op : HostOp) (s : State) : State := { s with pending := [.issue op] }

/-- The reset state with an envelope of its own. -/
def withEnv (e : Envelope) : State :=
  { State.reset with block := { Block.reset with env := e } }

/-- The reset state with another noise generator. -/
def withNoise (n : Noise) : State :=
  { State.reset with block := { Block.reset with noise := n } }

/-- The reset state with another voice A. -/
def withVoice (v : Voice) : State :=
  { State.reset with block := Block.reset.updateVoice 0 fun _ => v }

/-- The binary64 sample an operation returned, if it returned one. -/
def sampleBits (s : State) : Option Binary64 :=
  match s.reply with
  | some (.sample x) => some x.binary64
  | _ => none

/-! ### Ill-formed instructions are refused by the check (R114, R116) -/

theorem test_wellFormed_value_above : (Instr.wrR0 256).wellFormed = false := by decide
theorem test_wellFormed_value_below : (Instr.wrR13 (-1)).wellFormed = false := by decide
theorem test_wellFormed_index_above : (Instr.rd 16).wellFormed = false := by decide
theorem test_wellFormed_index_below : (Instr.rd (-1)).wellFormed = false := by decide
theorem test_wellFormed_bounds : (Instr.wrR15 255).wellFormed = true ∧
    (Instr.wrR0 0).wellFormed = true ∧ (Instr.rd 15).wellFormed = true ∧
    (Instr.rd 0).wellFormed = true := by decide

/-! ### Decoding: kind, index and data written out bit by bit (R112, R113) -/

theorem test_decode_tone_writes :
    decode 0b0000000001100100 = .ok (.wrR0 100) ∧ decode 0b0000000100001111 = .ok (.wrR1 15) ∧
    decode 0b0000001000110100 = .ok (.wrR2 52) ∧ decode 0b0000001100010010 = .ok (.wrR3 18) ∧
    decode 0b0000010000000001 = .ok (.wrR4 1) ∧ decode 0b0000010110000000 = .ok (.wrR5 128) := by
  decide

theorem test_decode_noise_and_mixer_writes :
    decode 0b0000011000011111 = .ok (.wrR6 31) ∧ decode 0b0000011100111110 = .ok (.wrR7 62) := by
  decide

theorem test_decode_amplitude_writes :
    decode 0b0000100000001111 = .ok (.wrR8 15) ∧ decode 0b0000100100011010 = .ok (.wrR9 26) ∧
    decode 0b0000101011101111 = .ok (.wrR10 239) := by
  decide

theorem test_decode_envelope_writes :
    decode 0b0000101100000001 = .ok (.wrR11 1) ∧ decode 0b0000110011111111 = .ok (.wrR12 255) ∧
    decode 0b0000110100001110 = .ok (.wrR13 14) := by
  decide

theorem test_decode_stored_writes :
    decode 0b0000111010101010 = .ok (.wrR14 170) ∧ decode 0b0000111111111111 = .ok (.wrR15 255) := by
  decide

theorem test_decode_others :
    decode 0b0001000000000000 = .ok .reset ∧ decode 0b0010000000000000 = .ok .sample ∧
    decode 0b0011011100000000 = .ok (.rd 7) ∧ decode 0b0011111100000000 = .ok (.rd 15) := by
  decide

/-- The refused words of 95_test_vectors.md section 2.1. -/
theorem test_decode_reserved :
    [0x1001, 0x1100, 0x2080, 0x3701, 0x4000, 0xFFFF].all
      (fun w => (decode w).toOption.isNone) = true := by
  decide

theorem test_table_word : decodeTableWord 16 0x0D0E = some (.wrR13 14) ∧
    decodeTableWord 16 0x4000 = none := by decide

theorem test_fetch_word :
    step (State.reset.withFetchWord 16 0x3700) = exec (.rd 7) State.reset := by rfl

/-! ### Register writes: the examples of 40_register_interface.md -/

theorem test_wrR0 : ((after (.wrR0 100) State.reset).block.voiceAt 0).period = 100 := by decide

theorem test_wrR1 :
    ((after (.wrR1 255) (after (.wrR0 255) State.reset)).block.voiceAt 0).period = 4095 := by
  decide

theorem test_wrR2 :
    ((after (.wrR3 0x12) (after (.wrR2 0x34) State.reset)).block.voiceAt 1).period = 564 := by
  decide

theorem test_wrR3 : ((after (.wrR3 1) State.reset).block.voiceAt 1).period = 256 := by decide

theorem test_wrR4 : ((after (.wrR4 0) State.reset).block.voiceAt 2).period = 1 := by decide

theorem test_wrR5 :
    ((after (.wrR5 0x12) (after (.wrR4 0x34) State.reset)).block.voiceAt 2).period = 564 := by
  decide

/-- From period 256 a write of the fine register gives 384 (section 2.2). -/
theorem test_wrR0_recomposes :
    ((after (.wrR0 0x80) (after (.wrR1 1) State.reset)).block.voiceAt 0).period = 384 := by decide

theorem test_wrR6 : (after (.wrR6 0x15) State.reset).block.noise.period = 42 ∧
    (after (.wrR6 0x20) State.reset).block.noise.period = 1 := by decide

theorem test_wrR7 :
    (List.finRange 3).map (fun k => (((after (.wrR7 0x2A) State.reset).block.voiceAt k).toneEnabled,
      ((after (.wrR7 0x2A) State.reset).block.voiceAt k).noiseEnabled)) =
    [(true, false), (false, true), (true, false)] := by decide

theorem test_wrR8 : ((after (.wrR8 0xE5) State.reset).block.voiceAt 0).volume = 5 ∧
    ((after (.wrR8 0xE5) State.reset).block.voiceAt 0).envelopeEnabled = false := by decide

theorem test_wrR9 : ((after (.wrR9 0x1A) State.reset).block.voiceAt 1).volume = 10 ∧
    ((after (.wrR9 0x1A) State.reset).block.voiceAt 1).envelopeEnabled = true := by decide

theorem test_wrR10 : ((after (.wrR10 0xEF) State.reset).block.voiceAt 2).volume = 15 ∧
    ((after (.wrR10 0xEF) State.reset).block.voiceAt 2).envelopeEnabled = false := by decide

theorem test_wrR11 : (after (.wrR11 1) State.reset).block.env.period = 2 := by decide

theorem test_wrR12 :
    (after (.wrR12 0x12) (after (.wrR11 0x34) State.reset)).block.env.period = 9320 := by decide

theorem test_wrR13 : (after (.wrR13 0x09) State.reset).block.env =
    { period := 1, counter := 0, continueFlag := true, attack := false, alternate := false,
      hold := true, phase := 0, output := 15, holding := false } := by decide

theorem test_wrR13_attack : (after (.wrR13 0xF4) State.reset).block.env.output = 0 ∧
    (after (.wrR13 0xF4) State.reset).block.env.attack = true := by decide

theorem test_wrR14 : (after (.rd 14) (after (.wrR14 0xAA) State.reset)).reply = some (.byte 0xAA) := by
  decide

theorem test_wrR15 : (after (.rd 15) (after (.wrR15 0x55) State.reset)).reply = some (.byte 0x55) := by
  decide

/-- The errors of section 2.8, from r3 = 5. -/
theorem test_write_errors :
    (after (.wrR3 256) State.reset).reply = some (.error (.invalidValue 256)) ∧
    (after (.wrR3 256) State.reset).block = State.reset.block := by decide

theorem test_write_lenient :
    ((after (.wrR3 (-1)) (lenient State.reset)).block.voiceAt 1).period = 3840 := by decide

theorem test_error_codes : (Reply.error (.outOfRange 16)).code = 1 ∧
    (Reply.error (.invalidValue 256)).code = 2 ∧ Reply.done.code = 0 := by decide

/-! ### Reset and read -/

theorem test_reset : (after .reset (after (.wrR0 5) State.reset)).block = Block.reset := by decide

theorem test_read : (after (.rd 1) (after (.wrR1 0xFF) State.reset)).reply = some (.byte 0xFF) := by
  decide

/-! ### SAMPLE: sections 2.3 to 2.6 -/

/-- Voice A of the block after one sample from a counter and output at a period. -/
def toneAfter (period counter : ℕ) (output : Fin 2) : Voice :=
  toneTick { Voice.reset with period := period, counter := counter, output := output }

theorem test_tone_tick : (toneAfter 100 99 0).counter = 0 ∧ (toneAfter 100 99 0).output = 1 ∧
    (toneAfter 4 7 0).output = 1 ∧ (toneAfter 4095 4093 1).counter = 4094 := by decide

theorem test_lfsr : lfsrNext 1 = 0x10000 ∧ lfsrNext 0x00008 = 0x10004 ∧
    lfsrNext 0x04001 = 0x12000 ∧ lfsrNext 0x08002 = 0x04001 := by decide

/-- The bottom of a triangle: output 0 on two consecutive steps, then upwards. -/
theorem test_envelope_triangle :
    let e : Envelope := { Envelope.reset with
      continueFlag := true, alternate := true, phase := 0, output := 0 }
    (envelopeTick .onStep e).attack = true ∧ (envelopeTick .onStep e).phase = 0 ∧
      (envelopeTick .onStep (envelopeTick .onStep e)).phase = 1 := by decide

/-- Shape 0 at period 1: 0 under `OnStep`, 15 under the other two readings, all holding. -/
theorem test_envelope_rules :
    (envelopeTick .onStep Envelope.reset).output = 0 ∧
    (envelopeTick .onStepAfterPolicy Envelope.reset).output = 15 ∧
    (envelopeTick .everyTick Envelope.reset).output = 15 ∧
    (envelopeTick .everyTick Envelope.reset).holding = true := by decide

/-- One voice at level 15 under the tone: 0.049999999999999996 (section 2.6). -/
theorem test_sample_one_voice :
    sampleBits (after .sample (after (.wrR7 0x3E) (after (.wrR8 15) State.reset))) =
      some 0x3FA9999999999999 := by decide +kernel

/-- The soft clip of 2.0: 1 - e^-1 scaled, 0.1896361676485673 (section 2.6, sample 19 of P7). -/
theorem test_soft_clip : mul64 (softClip64 defaultConfig 0x4000000000000000) threeTenths64 =
    0x3FC845FF79183D45 := by decide +kernel

/-- Exactly: three voices at 15 give 0.15, that is 384 / 256 / 3 * 0.3. -/
theorem test_sample_exact :
    let s := after (.wrR8 15) (after (.wrR9 15) (after (.wrR10 15) State.reset))
    (mix s.config (tick s.config s.block)).exact = .plain { ones := 384, roots := 0 } := by
  decide +kernel

/-! ### The host operations and the assembly notation -/

/-- After `processSamples(buf, 3)` from reset (section 2.7). -/
theorem test_process_samples :
    (generateMany defaultConfig 3 Block.reset).1.noise.lfsr = 0x4000 ∧
    (generateMany defaultConfig 3 Block.reset).2.map Sample.binary64 = [0, 0, 0] := by
  decide +kernel

theorem test_construct : step (asks (.construct 48000) State.reset) =
    .next { State.reset with reply := some .done } := by rfl

theorem test_assemble_spec_words :
    assemble "reset ; start\nwr AFINE, 100\nwr r7, 0x3E\nsamples 2\nrd 0" =
      some [.command 0x1000, .command 0x0064, .command 0x073E, .command 0x2000, .command 0x2000,
        .command 0x3000] := by decide +kernel

theorem test_assemble_pseudo :
    assemble "tone B, 564\nenvper 0x1234" =
      some [.command 0x0234, .command 0x0302, .command 0x0B34, .command 0x0C12] := by
  decide +kernel

theorem test_assemble_refuses : assemble "wr r16, 0" = none ∧ assemble "wr r0, 256" = none ∧
    assemble "tone D, 1" = none := by decide +kernel

/-! ### The hypotheses of the statements can be met -/

theorem test_hypotheses_decodeOfEncode : (Instr.wrR0 0).wellFormed = true ∧
    (Instr.wrR15 255).wellFormed = true ∧ (Instr.rd 0).wellFormed = true ∧
    (Instr.rd 15).wellFormed = true := by decide

theorem test_hypotheses_encodeOfDecode : decode 0x0FFF = .ok (.wrR15 255) ∧ decode 0x1000 = .ok .reset := by
  decide

/-- The first and last word of each kind of `CommandKinds`. -/
theorem test_hypotheses_commandKinds :
    (0x0000#16).toNat / 4096 = 0 ∧ (0x0FFF#16).toNat / 4096 = 0 ∧
    (15 : Fin 16).val = (0x0FFF#16).toNat / 256 % 16 ∧
    (0x1000#16).toNat / 4096 = 1 ∧ (0x1000#16).toNat % 4096 = 0 ∧
    (0x2000#16).toNat / 4096 = 2 ∧ (0x2000#16).toNat % 4096 = 0 ∧
    (0x3000#16).toNat / 4096 = 3 ∧ (0x3F00#16).toNat / 4096 = 3 ∧ (0x3F00#16).toNat % 256 = 0 ∧
    4 ≤ (0x4000#16).toNat / 4096 ∧ 4 ≤ (0xFFFF#16).toNat / 4096 ∧
    (State.reset.withFetchWord 16 0x4000).pending = [.issue (.command 0x4000)] := by decide

theorem test_hypotheses_decodableWords : (decode 0x1001).toOption = none ∧
    (decode 0x0FFF).toOption ≠ none ∧
    (State.reset.withFetchWord 16 0x1001).pending = [.issue (.command 0x1001)] := by decide

theorem test_hypotheses_stepRunsDecodedInstruction :
    (State.reset.withFetchWord 16 0x3F00).pending = [.issue (.command 0x3F00)] ∧
    decode 0x3F00 = .ok (.rd 15) := by decide

theorem test_hypotheses_stepRunsTypedCalls :
    (asks (.writeRegister (15 : Fin 16).val 300) State.reset).pending =
      .issue (.writeRegister (15 : Fin 16).val 300) :: [] ∧
    (asks (.readRegister (-1)) State.reset).pending = .issue (.readRegister (-1)) :: [] ∧
    (asks .reset State.reset).pending = .issue .reset :: [] ∧
    (asks .generateSample State.reset).pending = .issue .generateSample :: [] := by decide

theorem test_hypotheses_idleBlockKeepsState : State.reset.pending = [] := by decide

/-- Each of the four refusals of `RefusalsOfR284` is reached, and a call on its edge is not refused. -/
theorem test_hypotheses_refusals :
    step (asks (.command 0x3701) State.reset) = .refused (.reservedCommand 0x3701) ∧
    step (asks (.processSamples 2 3) State.reset) = .refused (.shortBuffer 2 3) ∧
    step (asks (.construct 0) State.reset) = .refused .zeroSampleRate ∧
    step { State.reset with pending := [.overlapping .generateSample (.writeRegister 0 1)] } =
      .refused .overlappingOperations ∧
    step (asks (.processSamples 0 0) State.reset) =
      .next { State.reset with reply := some (.samples []) } := by
  exact ⟨rfl, rfl, rfl, rfl, rfl⟩

theorem test_hypotheses_outOfRangeErrors :
    ¬((0 : Int) ≤ 16 ∧ (16 : Int) ≤ 15) ∧ ¬((0 : Int) ≤ -1 ∧ (-1 : Int) ≤ 15) ∧
    (asks (.writeRegister 16 255) State.reset).pending = .issue (.writeRegister 16 255) :: [] ∧
    (asks (.readRegister (-1)) State.reset).pending = .issue (.readRegister (-1)) :: [] := by decide

theorem test_hypotheses_indexCheckedFirst :
    (asks (.writeRegister (-1) 300) State.reset).pending = .issue (.writeRegister (-1) 300) :: [] ∧
    ¬((0 : Int) ≤ -1 ∧ (-1 : Int) ≤ 15) ∧ ¬((0 : Int) ≤ 300 ∧ (300 : Int) ≤ 255) := by decide

theorem test_hypotheses_invalidValueOnlyStrict :
    (asks (.writeRegister 3 256) State.reset).pending = .issue (.writeRegister 3 256) :: [] ∧
    State.reset.config.writePolicy = .strict ∧ ¬((0 : Int) ≤ 256 ∧ (256 : Int) ≤ 255) ∧
    ¬((0 : Int) ≤ -1 ∧ (-1 : Int) ≤ 255) ∧
    ∃ t, step (asks (.writeRegister 3 256) State.reset) = .next t ∧
      t.reply = some (.error (.invalidValue 256)) := by
  exact ⟨rfl, rfl, by decide, by decide, _, rfl, rfl⟩

theorem test_hypotheses_lenientWriteMasks :
    (asks (.writeRegister (3 : Fin 16).val (-1)) (lenient State.reset)).pending =
      .issue (.writeRegister (3 : Fin 16).val (-1)) :: [] ∧
    (asks (.writeRegister (3 : Fin 16).val (-1)) (lenient State.reset)).config.writePolicy =
      .lenient := by decide

theorem test_hypotheses_errorChangesNoState :
    ∃ t, step (asks (.readRegister 16) State.reset) = .next t ∧
      t.reply = some (.error (.outOfRange 16)) := by
  exact ⟨_, rfl, rfl⟩

/-- Both policies, and the edges of the byte range, for every statement made with `WriteRule`. -/
theorem test_hypotheses_writeRule :
    Accepts State.reset 0 ∧ Accepts State.reset 255 ∧ Accepts (lenient State.reset) (-1) ∧
    Accepts (lenient State.reset) 256 ∧ ¬Accepts State.reset (-1) ∧ ¬Accepts State.reset 256 := by
  decide

theorem test_hypotheses_storedOnlyWrites :
    Accepts State.reset 255 ∧ (14 : Fin 16).val = 14 ∧ (15 : Fin 16).val = 15 ∧
    (∃ t, exec (Instr.ofWrite 14 255) State.reset = .next t) ∧
    ∃ t, exec (Instr.ofWrite 15 (-1)) State.reset = .next t := by
  exact ⟨by decide, rfl, rfl, ⟨_, rfl⟩, ⟨_, rfl⟩⟩

theorem test_hypotheses_writesIdempotentButShape :
    (12 : Fin 16) ≠ 13 ∧ (∃ t, exec (Instr.ofWrite 12 255) State.reset = .next t) ∧
    ∃ t, exec (.rd 15) State.reset = .next t := by
  exact ⟨by decide, ⟨_, rfl⟩, ⟨_, rfl⟩⟩

theorem test_hypotheses_reset : ∃ t, exec .reset (after (.wrR7 0x3F) State.reset) = .next t := by
  exact ⟨_, rfl⟩

theorem test_hypotheses_readRegister :
    ¬((0 : Int) ≤ 16 ∧ (16 : Int) ≤ 15) ∧ ¬((0 : Int) ≤ -1 ∧ (-1 : Int) ≤ 15) := by decide

theorem test_hypotheses_newRecordsRateAndResets :
    (asks (.construct 1) State.reset).pending = .issue (.construct 1) :: [] ∧ 0 < 1 ∧
    (asks (.construct 0) State.reset).pending = .issue (.construct 0) :: [] := by decide

/-- A voice below, at and above its last count (`SampleTicksTones`). -/
theorem test_hypotheses_sampleTicksTones :
    let at_ := fun n => ((withVoice { Voice.reset with period := 2, counter := n }).block.voiceAt 0)
    (at_ 0).counter + 1 < (at_ 0).period ∧ (at_ 1).period ≤ (at_ 1).counter + 1 ∧
      (at_ 2).period ≤ (at_ 2).counter + 1 := by decide

theorem test_hypotheses_sampleTicksNoise :
    let at_ := fun n => (withNoise { Noise.reset with period := 2, counter := n }).block.noise
    (at_ 0).counter + 1 < (at_ 0).period ∧ (at_ 1).period ≤ (at_ 1).counter + 1 := by decide

/-- A held envelope, and a running one below its period (`SampleCountsEnvelope`). -/
theorem test_hypotheses_sampleCountsEnvelope :
    let held := (withEnv { Envelope.reset with holding := true }).block.env
    let runs := (withEnv { Envelope.reset with period := 2 }).block.env
    held.continueFlag = false ∧ held.holding = true ∧
      ¬(runs.continueFlag = false ∧ runs.holding = true) ∧ runs.counter + 1 < runs.period := by
  decide

/-- Both ends and the middle of the phase, each policy and each reading (`SampleStepsEnvelope`). -/
theorem test_hypotheses_sampleStepsEnvelope :
    let at_ := fun (attack continueFlag alternate : Bool) (phase : Fin 32) =>
      (withEnv { Envelope.reset with attack, continueFlag, alternate, phase }).block.env
    (∀ attack continueFlag alternate phase,
      (at_ attack continueFlag alternate phase).holding = false ∧
        (at_ attack continueFlag alternate phase).period ≤
          (at_ attack continueFlag alternate phase).counter + 1) ∧
    (at_ true false false 30).phase.val < 31 ∧ (at_ true false false 31).phase.val = 31 ∧
    (at_ true true true 31).continueFlag = true ∧ (at_ true true true 31).alternate = true ∧
    (at_ true true false 31).alternate = false ∧ 0 < (at_ false false false 1).phase.val ∧
    (at_ false false false 0).phase.val = 0 ∧ (at_ false true true 0).alternate = true ∧
    (withRule .onStep State.reset).config.envOutputRule = .onStep ∧
    (withRule .everyTick State.reset).config.envOutputRule ≠ .onStep ∧
    (withRule .onStepAfterPolicy State.reset).config.envOutputRule ≠ .onStep ∧
    (let e := (withEnv { Envelope.reset with holding := true, continueFlag := true }).block.env
     e.holding = true ∧ e.continueFlag = true ∧ e.period ≤ e.counter + 1) := by
  decide

/-- Either output at the start of a period. -/
theorem test_hypotheses_toneIsSquareWave :
    (State.reset.block.voiceAt 2).counter = 0 ∧ 1 ≤ (State.reset.block.voiceAt 2).period ∧
    ((after .sample State.reset).block.voiceAt 2).counter = 0 ∧
    ((after .sample State.reset).block.voiceAt 2).output = 1 := by decide

/-- Voice A at counter 7 of period 10: a write of 4 toggles next, a write of 20 toggles after 13 ticks
(`PeriodChangeTakesEffectNextTick`). -/
theorem test_hypotheses_periodChange :
    let s := withVoice { Voice.reset with period := 10, counter := 7 }
    let t := fun value => after (Instr.ofWrite 0 value) s
    ((0 : Fin 16).val = 2 * (0 : Fin 3).val ∨ (0 : Fin 16).val = 2 * (0 : Fin 3).val + 1) ∧
    exec (Instr.ofWrite 0 4) s = .next (t 4) ∧ exec (Instr.ofWrite 0 20) s = .next (t 20) ∧
    ((t 4).block.voiceAt 0).period ≤ ((t 4).block.voiceAt 0).counter + 1 ∧
    12 < ((t 20).block.voiceAt 0).period - ((t 20).block.voiceAt 0).counter ∧
    ((t 20).block.voiceAt 0).counter + 1 < ((t 20).block.voiceAt 0).period ∧
    13 = ((t 20).block.voiceAt 0).period - ((t 20).block.voiceAt 0).counter ∧
    ∃ u, sampleTimes 13 (t 20) = some u := by
  refine ⟨by decide, rfl, rfl, by decide, by decide, by decide, by decide, _, rfl⟩

/-- A command word that is no RESET does not seed the LFSR. -/
theorem not_seedsLfsr_command {w : CommandWord} (h : decode w ≠ .ok .reset) :
    ¬SeedsLfsr (.issue (.command w)) := by
  rintro (e | ⟨v, e, d⟩ | ⟨_, e⟩) <;> cases e
  exact h d

/-- The three seeding requests, each of which the step performs. -/
theorem test_hypotheses_lfsrNeverLoaded_seeds :
    (SeedsLfsr (.issue .reset) ∧ ∃ t, step (asks .reset State.reset) = .next t) ∧
    (SeedsLfsr (.issue (.command 0x1000)) ∧
      ∃ t, step (asks (.command 0x1000) State.reset) = .next t) ∧
    (SeedsLfsr (.issue (.construct 1)) ∧
      ∃ t, step (asks (.construct 1) State.reset) = .next t) :=
  ⟨⟨.inl rfl, _, rfl⟩, ⟨.inr (.inl ⟨_, rfl, by decide⟩), _, rfl⟩, ⟨.inr (.inr ⟨_, rfl⟩), _, rfl⟩⟩

/-- The idle step, and requests for no, one and several samples. -/
theorem test_hypotheses_lfsrNeverLoaded :
    (∃ t, step State.reset = .next t) ∧ State.reset.pending = [] ∧
    (¬SeedsLfsr (.issue (.command 0x06FF)) ∧ samplesAsked (.issue (.command 0x06FF)) = 0 ∧
      ∃ t, step (asks (.command 0x06FF) State.reset) = .next t) ∧
    (¬SeedsLfsr (.issue (.command 0x2000)) ∧ samplesAsked (.issue (.command 0x2000)) = 1 ∧
      ∃ t, step (asks (.command 0x2000) State.reset) = .next t) ∧
    (¬SeedsLfsr (.issue (.processSamples 3 3)) ∧
      samplesAsked (.issue (.processSamples 3 3)) = 3 ∧
      ∃ t, step (asks (.processSamples 3 3) State.reset) = .next t) :=
  ⟨⟨_, rfl⟩, rfl, ⟨not_seedsLfsr_command (by decide), by decide, _, rfl⟩,
    ⟨not_seedsLfsr_command (by decide), by decide, _, rfl⟩,
    ⟨(by rintro (e | ⟨_, e, _⟩ | ⟨_, e⟩) <;> cases e), by decide, _, rfl⟩⟩

theorem test_hypotheses_noiseFullPeriod : 0 < 1 ∧ 1 < 131071 ∧ 131070 < 131071 := by decide

theorem test_hypotheses_envelopeTrajectories :
    Accepts State.reset 0 ∧ Accepts State.reset 15 ∧ State.reset.config.envOutputRule = .onStep ∧
    1 ≤ State.reset.block.env.period ∧ ∃ t, exec (.wrR13 15) State.reset = .next t := by
  exact ⟨by decide, by decide, rfl, by decide, _, rfl⟩

theorem test_hypotheses_volumeTable : (1 : Fin 32).val ≠ 0 ∧ (31 : Fin 32).val ≠ 0 := by decide

theorem test_hypotheses_sampleRange :
    State.reset.config.envLevelRule = .index halveTable ∧
    State.reset.config.fpow2 = exactPow2Table := by exact ⟨rfl, rfl⟩

theorem test_hypotheses_rounding : 0 < 3 ∧ 1 < 2047 * 2 ^ 52 ∧ roundBits 1 3 < 2047 * 2 ^ 52 := by
  decide +kernel

/-- The least and the greatest finite number, -0, and a divisor that is not 0. -/
theorem test_hypotheses_binaryArithmeticRounds :
    Finite64 0x0000000000000001 ∧ Finite64 0x7FEFFFFFFFFFFFFF ∧ Finite64 0x8000000000000000 ∧
    ¬Finite64 0x7FF0000000000000 ∧ finiteValue 0x4008000000000000 ≠ 0 := by
  refine ⟨by decide, by decide, by decide, by decide, ?_⟩
  rw [Ne, finiteValue_eq_zero]
  decide +kernel

theorem test_hypotheses_disabledVoiceIsSilent :
    let s := after (.wrR7 0x3F) State.reset
    (s.block.voiceAt 1).toneEnabled = false ∧ (s.block.voiceAt 1).noiseEnabled = false ∧
    (∃ t, exec .sample s = .next t) ∧
    ∃ u, exec .sample { s with block := s.block.updateVoice 1 fun v =>
      { v with volume := 15, envelopeEnabled := true } } = .next u := by
  exact ⟨by decide, by decide, ⟨_, rfl⟩, ⟨_, rfl⟩⟩

theorem test_hypotheses_batchIsRepeatedSample :
    (asks (.processSamples 3 3) State.reset).pending = .issue (.processSamples 3 3) :: [] ∧ 3 ≤ 3 ∧
    (asks (.processSamples 2 3) State.reset).pending = .issue (.processSamples 2 3) :: [] ∧
    2 < 3 := by decide

theorem test_hypotheses_operationsReadBlockAndConfigOnly :
    let s' := asks .reset { State.reset with sampleRate := 44100 }
    State.reset ≠ s' ∧ State.reset.block = s'.block ∧ State.reset.config = s'.config ∧
    (∃ t, exec .sample State.reset = .next t) ∧ ∃ t', exec .sample s' = .next t' := by
  exact ⟨by decide, rfl, rfl, ⟨_, rfl⟩, ⟨_, rfl⟩⟩

/-- Bits 7:4 of r1 and all of r14 are unused. -/
theorem test_hypotheses_unusedBits :
    let s' := { State.reset with
      block := (State.reset.block.storeReg 1 0xF0).storeReg 14 0xFF }
    State.reset ≠ s' ∧ SameButUnusedBits State.reset s' ∧
      ∃ t, exec (.wrR0 1) State.reset = .next t := by
  exact ⟨by decide, by decide, _, rfl⟩

theorem test_hypotheses_holdFlag : State.reset.withHold true ≠ State.reset ∧
    ∃ t, exec .sample State.reset = .next t := by
  exact ⟨by decide, _, rfl⟩

theorem test_hypotheses_step : ∃ t, step (asks (.command 0x2000) State.reset) = .next t := by
  exact ⟨_, rfl⟩

theorem test_hypotheses_inRange : State.reset.block.InRange ∧
    (after (.wrR6 31) (after (.wrR12 255) State.reset)).block.InRange := by decide

theorem test_hypotheses_bankAgrees : State.reset.block.BankAgrees ∧
    (after (.wrR7 0) (after (.wrR9 0x1F) State.reset)).block.BankAgrees := by decide

end Sys2Proof.Tests
end

/-! SUPPORT. The fields of a command word given as a number, and the words of the rows (R112,
R113). -/

namespace Sys2Proof

/-- The kind counts 4096 (R112). -/
theorem kindField_ofNat (n : ℕ) : kindField (BitVec.ofNat 16 n) = BitVec.ofNat 4 (n / 4096) := by
  apply BitVec.eq_of_toNat_eq
  simp only [kindField, BitVec.extractLsb'_toNat, BitVec.toNat_ofNat, Nat.shiftRight_eq_div_pow]
  omega

/-- The index counts 256 (R112). -/
theorem indexField_ofNat (n : ℕ) : indexField (BitVec.ofNat 16 n) = BitVec.ofNat 4 (n / 256) := by
  apply BitVec.eq_of_toNat_eq
  simp only [indexField, BitVec.extractLsb'_toNat, BitVec.toNat_ofNat, Nat.shiftRight_eq_div_pow]
  omega

/-- The data is the low byte (R112). -/
theorem dataField_ofNat (n : ℕ) : dataField (BitVec.ofNat 16 n) = BitVec.ofNat 8 n := by
  apply BitVec.eq_of_toNat_eq
  simp only [dataField, BitVec.extractLsb'_toNat, BitVec.toNat_ofNat, Nat.shiftRight_zero]
  omega

/-- A word of kind 0 is the write of its data to the cell of its index (R113). -/
theorem decode_of_kind_write {w : CommandWord} (h : kindField w = 0) :
    decode w = .ok (Instr.ofWrite (indexField w).toFin (dataField w).toNat) := by
  rw [decode, if_pos h]

/-- A word of kind 3 with data 0 is the read of the cell of its index (R113, R114). -/
theorem decode_of_kind_read {w : CommandWord} (h : kindField w = 3) (hd : dataField w = 0) :
    decode w = .ok (.rd (indexField w).toNat) := by
  simp [decode, h, hd]

/-- `(i << 8) | value` is the write of `value` to cell `i` (R117). -/
theorem decode_write_word (i : Fin 16) {value : Int} (h0 : 0 ≤ value) (h255 : value ≤ 255) :
    decode (BitVec.ofNat 16 (256 * i.val + value.toNat)) = .ok (Instr.ofWrite i value) := by
  have hkind : kindField (BitVec.ofNat 16 (256 * i.val + value.toNat)) = 0 := by
    rw [kindField_ofNat, show (256 * i.val + value.toNat) / 4096 = 0 by omega]; rfl
  have hindex : (indexField (BitVec.ofNat 16 (256 * i.val + value.toNat))).toFin = i := by
    rw [indexField_ofNat, show (256 * i.val + value.toNat) / 256 = i.val by omega]
    exact Fin.ext (Nat.mod_eq_of_lt i.isLt)
  have hdata : ((dataField (BitVec.ofNat 16 (256 * i.val + value.toNat))).toNat : Int) = value := by
    rw [dataField_ofNat, BitVec.toNat_ofNat]
    omega
  rw [decode_of_kind_write hkind, hindex, hdata]

/-- `0x3i00` is the read of cell `i` (R113). -/
theorem decode_read_word (i : Fin 16) :
    decode (BitVec.ofNat 16 (0x3000 + 256 * i.val)) = .ok (.rd i.val) := by
  have hkind : kindField (BitVec.ofNat 16 (0x3000 + 256 * i.val)) = 3 := by
    rw [kindField_ofNat, show (0x3000 + 256 * i.val) / 4096 = 3 by omega]; rfl
  have hindex : (indexField (BitVec.ofNat 16 (0x3000 + 256 * i.val))).toNat = i.val := by
    rw [indexField_ofNat, BitVec.toNat_ofNat]
    omega
  have hdata : dataField (BitVec.ofNat 16 (0x3000 + 256 * i.val)) = 0 := by
    apply BitVec.eq_of_toNat_eq
    rw [dataField_ofNat, BitVec.toNat_ofNat]
    change (0x3000 + 256 * i.val) % 256 = 0
    omega
  rw [decode_of_kind_read hkind hdata, hindex]

end Sys2Proof

/-! SUPPORT. The one scheme of the sixteen register writes: from what the decode of a row does to
the derived state to the rule of the row. -/

namespace Sys2Proof.Machine

/-- The decode of a row reads the bank and never writes it. -/
@[simp] theorem deriveOf_readReg (i : Fin 16) (b : Block) (j : Fin 16) :
    (deriveOf i b).readReg j = b.readReg j := by
  fin_cases i <;> rfl

/-- A write of an accepted value stores and decodes. -/
theorem writeCell_of_accepts {s : State} {value : Int} (h : Accepts s value) (i : Fin 16)
    (derive : Block → Block) :
    writeCell i value derive s =
      s.finish (derive (s.block.storeReg i (maskByte value))) .done := by
  rw [writeCell_eq, if_pos ((valueAccepted_iff ..).mpr h)]

/-- A write of any other value raises `InvalidValue` (R142). -/
theorem writeCell_of_not_accepts {s : State} {value : Int} (h : ¬Accepts s value) (i : Fin 16)
    (derive : Block → Block) : writeCell i value derive s = s.raise (.invalidValue value) := by
  rw [writeCell_eq, if_neg (mt (valueAccepted_iff ..).mp h)]

/-- Store and decode write the cell, whatever the row derives (R140, R144). -/
theorem cellWritten_finish (i : Fin 16) (value : Int) (s : State) :
    CellWritten i value s
      (s.finish (deriveOf i (s.block.storeReg i (maskByte value))) .done) := by
  refine ⟨?_, fun j hj => ?_, rfl, rfl, rfl, rfl⟩
  · simp [maskByte_toNat]
  · simp [Block.readReg_storeReg_other _ _ hj]

/-- A register write obeys the rule of its row if its decode has the stated effect on the block with
the byte stored. -/
theorem writeRule_ofWrite (i : Fin 16) {effect : Block → Block → Prop}
    (h : ∀ (b : Block) (v : Byte), effect b (deriveOf i (b.storeReg i v))) :
    WriteRule (Instr.ofWrite i) i effect := by
  refine ⟨fun s value ha => ?_, fun s value hn => ?_, fun value h0 h255 => ?_⟩
  · refine ⟨_, ?_, cellWritten_finish i value s, h s.block (maskByte value)⟩
    rw [exec_ofWrite, writeCell_of_accepts ha]
  · rw [exec_ofWrite, writeCell_of_not_accepts hn, State.raise]
  · exact decode_write_word i h0 h255

/-- An update of voice `k` after a store changes nothing derived but voice `k`. -/
theorem onlyVoice_updateVoice_storeReg (k : Fin 3) (i : Fin 16) (v : Byte) {f : Voice → Voice}
    {b : Block} {w : Voice} (hf : f (b.voiceAt k) = w) :
    OnlyVoice k w b ((b.storeReg i v).updateVoice k f) :=
  ⟨by simp [hf], fun j hj => by simp [Block.voiceAt_updateVoice_other _ _ hj], rfl, rfl⟩

/-- The cells of the tone period of voice `k` are `2k` and `2k + 1` (R147). -/
theorem tonePeriod_eq_tonePeriodOf (b : Block) (k : Fin 3) :
    tonePeriod b k =
      tonePeriodOf (b.readReg ⟨2 * k.val, by omega⟩) (b.readReg ⟨2 * k.val + 1, by omega⟩) := by
  rw [tonePeriod_eq, tonePeriodOf]
  fin_cases k <;> simp [toneCoarse, toneFine]

/-- The decode of a tone period register sets the period of its voice and nothing else (R145). -/
theorem toneEffect_deriveTonePeriod (k : Fin 3) (i : Fin 16) (b : Block) (v : Byte) :
    ToneEffect k ⟨2 * k.val, by omega⟩ ⟨2 * k.val + 1, by omega⟩ b
      (deriveTonePeriod k (b.storeReg i v)) := by
  apply onlyVoice_updateVoice_storeReg
  rw [tonePeriod_eq_tonePeriodOf]
  rfl

/-- The volume on numbers: bits 3:0 of the amplitude register (R105). -/
theorem directLevel_eq (b : Block) (k : Fin 3) :
    directLevel b k = Fin.ofNat 16 ((amplitude b k).toNat % 16) := by
  ext
  simp [directLevel]

/-- The envelope mode on numbers: bit 4 of the amplitude register (R105). -/
theorem envelopeEnable_eq (b : Block) (k : Fin 3) :
    envelopeEnable b k = decide ((amplitude b k).toNat / 16 % 2 = 1) :=
  getLsbD_eq_digit _ 4

/-- Shape bit 3 on numbers (R108). -/
theorem shapeContinue_eq (b : Block) :
    shapeContinue b = decide ((b.readReg 13).toNat / 8 % 2 = 1) := getLsbD_eq_digit _ 3

/-- Shape bit 2 on numbers (R108). -/
theorem shapeAttack_eq (b : Block) :
    shapeAttack b = decide ((b.readReg 13).toNat / 4 % 2 = 1) := getLsbD_eq_digit _ 2

/-- Shape bit 1 on numbers (R108). -/
theorem shapeAlternate_eq (b : Block) :
    shapeAlternate b = decide ((b.readReg 13).toNat / 2 % 2 = 1) := getLsbD_eq_digit _ 1

/-- Shape bit 0 on numbers (R108). -/
theorem shapeHold_eq (b : Block) : shapeHold b = decide ((b.readReg 13).toNat % 2 = 1) := by
  rw [shapeHold, getLsbD_eq_digit, Nat.pow_zero, Nat.div_one]

/-- The decode of the amplitude register of voice `k` sets the level and the envelope mode of that
voice and nothing else (R156 to R158). -/
theorem amplitudeEffect_deriveAmplitude {k : Fin 3} {j : Fin 16}
    (hj : ∀ b, amplitude b k = b.readReg j) (i : Fin 16) (b : Block) (v : Byte) :
    AmplitudeEffect k j b (deriveAmplitude k (b.storeReg i v)) := by
  apply onlyVoice_updateVoice_storeReg
  rw [directLevel_eq, envelopeEnable_eq, hj]
  rfl

end Sys2Proof.Machine

/-! SUPPORT. Which operations answer `InvalidValue`, and what a sample reads of the block. -/

namespace Sys2Proof.Machine

/-- An instruction that answers `InvalidValue` is a write whose value is outside 0..255, under the
strict policy (R142, R272). -/
theorem exec_invalidValue {i : Instr} {s t : State} {value : Int} (h : exec i s = .next t)
    (hr : t.reply = some (.error (.invalidValue value))) :
    s.config.writePolicy = .strict ∧ ¬(0 ≤ value ∧ value ≤ 255) := by
  obtain ⟨_, _, -, -, rfl⟩ | ⟨_, written, -, hv, rfl⟩ | ⟨-, rfl⟩ | ⟨-, rfl⟩ | ⟨_, -, rfl⟩ |
    ⟨_, -, -, rfl⟩ := exec_cases h
  case inr.inl =>
    obtain rfl : written = value := by simpa using hr
    cases hp : s.config.writePolicy with
    | strict => exact ⟨rfl, by simpa [hp, valueAccepted] using hv⟩
    | lenient => simp [hp, valueAccepted] at hv
  all_goals simp at hr

/-- A request that answers `InvalidValue` ran under the strict policy on a value outside 0..255. -/
theorem serve_invalidValue {r : Request} {s t : State} {value : Int} (h : serve r s = .next t)
    (hr : t.reply = some (.error (.invalidValue value))) :
    s.config.writePolicy = .strict ∧ ¬(0 ≤ value ∧ value ≤ 255) := by
  obtain ⟨_, hi⟩ | ⟨_, rfl⟩ | ⟨_, _, -, -, rfl⟩ | ⟨_, -, -, rfl⟩ := serve_cases h
  · exact exec_invalidValue hi hr
  all_goals simp at hr

/-- The typed write at an index of the bank is the write of its row (R116, R145). -/
theorem callWrite_inside (index : Fin 16) (value : Int) (s : State) :
    callWrite index.val value s = exec (Instr.ofWrite index value) s := by
  have h : (0 : Int) ≤ index.val ∧ (index.val : Int) ≤ 15 := by omega
  have e : Fin.ofNat 16 (index.val : Int).toNat = index :=
    Fin.ext (Nat.mod_eq_of_lt index.isLt)
  rw [callWrite, if_pos h, e]

/-- What a voice contributes to the mix depends on the voice, the noise and the envelope. -/
theorem contribution_congr (c : Config) {b b' : Block} (k : Fin 3) (hv : b.voiceAt k = b'.voiceAt k)
    (hn : b.noise = b'.noise) (he : b.env = b'.env) : contribution c b k = contribution c b' k := by
  simp only [contribution, hv, hn, he]

/-- Samples never read the bank: states with the same voices, noise and envelope, under the same
parameters, return the same results. -/
theorem sampleTimes_reply_congr {s t : State} (hc : t.config = s.config)
    (hv : ∀ k, t.block.voiceAt k = s.block.voiceAt k) (hn : t.block.noise = s.block.noise)
    (he : t.block.env = s.block.env) (n : ℕ) :
    ∃ u v, sampleTimes (n + 1) s = some u ∧ sampleTimes (n + 1) t = some v ∧ v.reply = u.reply := by
  obtain ⟨u, hu, hub, huc, -⟩ := sampleTimes_eq (n + 1) s
  obtain ⟨v, hv', hvb, hvc, -⟩ := sampleTimes_eq (n + 1) t
  have hmix : mix s.config v.block = mix s.config u.block := by
    refine mix_congr _ fun k => contribution_congr _ k ?_ ?_ ?_
    · simp only [hub, hvb, hc, iterate_tick_voiceAt, hv]
    · simp only [hub, hvb, hc, iterate_tick_noise, hn]
    · simp only [hub, hvb, hc, iterate_tick_env, he]
  refine ⟨u, v, hu, hv', ?_⟩
  rw [sampleTimes_reply n s u hu, sampleTimes_reply n t v hv', hvc, hc, huc, hmix]

/-- The decode of registers 14 and 15 derives nothing (R163, R164). -/
theorem deriveOf_storedOnly {index : Fin 16} (h : index.val = 14 ∨ index.val = 15) (b : Block) :
    deriveOf index b = b := by
  obtain h | h := h <;> simp [deriveOf, h]

/-- A write of register 14 or 15, accepted or not, leaves what samples read as it was. -/
theorem writeCell_storedOnly {index : Fin 16} (h : index.val = 14 ∨ index.val = 15) (value : Int)
    (s : State) :
    (∀ k, (writeCell index value (deriveOf index) s).block.voiceAt k = s.block.voiceAt k) ∧
      (writeCell index value (deriveOf index) s).block.noise = s.block.noise ∧
      (writeCell index value (deriveOf index) s).block.env = s.block.env := by
  obtain e | e := writeCell_block index value (deriveOf index) s
  · simp [e, deriveOf_storedOnly h]
  · simp [e]

end Sys2Proof.Machine

/-! CLAIMS. The register interface (40_register_interface.md). -/

namespace Sys2Proof.Machine

/-- Settles O12: the typed write by its row, and the other way by the inversion of a request. -/
theorem invalidValueOnlyStrict : Obligations.InvalidValueOnlyStrict := by
  refine ⟨fun s rest index value hp h0 h15 hs hv => ?_, fun s t value hp ht hr => ?_⟩
  · obtain ⟨i, rfl⟩ := Int.eq_ofNat_of_zero_le h0
    have hn : ¬Accepts { s with pending := rest } value := by simpa [Accepts, hs] using hv
    calc step s = callWrite (⟨i, by omega⟩ : Fin 16).val value { s with pending := rest } :=
          step_request hp
      _ = .next (writeCell ⟨i, by omega⟩ value (deriveOf _) { s with pending := rest }) := by
          rw [callWrite_inside, exec_ofWrite]
      _ = _ := by rw [writeCell_of_not_accepts hn, State.raise]
  · obtain ⟨r, rest, hrest⟩ := List.exists_cons_of_ne_nil hp
    rw [step_request hrest] at ht
    exact serve_invalidValue (s := { s with pending := rest }) ht hr

/-- Settles O15: each row is the one scheme with the decode of its voice. -/
theorem tonePeriodWrites : Obligations.TonePeriodWrites :=
  ⟨writeRule_ofWrite 0 (toneEffect_deriveTonePeriod 0 0),
    writeRule_ofWrite 1 (toneEffect_deriveTonePeriod 0 1),
    writeRule_ofWrite 2 (toneEffect_deriveTonePeriod 1 2),
    writeRule_ofWrite 3 (toneEffect_deriveTonePeriod 1 3),
    writeRule_ofWrite 4 (toneEffect_deriveTonePeriod 2 4),
    writeRule_ofWrite 5 (toneEffect_deriveTonePeriod 2 5)⟩

/-- Settles O16, by the scheme and the noise period on numbers. -/
theorem noisePeriodWrite : Obligations.NoisePeriodWrite :=
  writeRule_ofWrite 6 fun b v => by
    refine ⟨?_, rfl, rfl⟩
    change (deriveNoisePeriod (b.storeReg 6 v)).noise = _
    rw [deriveNoisePeriod_noise, noisePeriod_eq]
    rfl

/-- Settles O17, by the scheme and the active-low bits on numbers. -/
theorem mixerWrite : Obligations.MixerWrite :=
  writeRule_ofWrite 7 fun b v => by
    refine ⟨fun k => ?_, rfl, rfl⟩
    change (deriveMixer (b.storeReg 7 v)).voiceAt k = _
    rw [deriveMixer_voiceAt, toneEnable, noiseEnable, not_getLsbD_eq_digit, not_getLsbD_eq_digit]
    rfl

/-- Settles O18: each row is the one scheme with the decode of its voice. -/
theorem amplitudeWrites : Obligations.AmplitudeWrites :=
  ⟨writeRule_ofWrite 8 (amplitudeEffect_deriveAmplitude (fun _ => rfl) 8),
    writeRule_ofWrite 9 (amplitudeEffect_deriveAmplitude (fun _ => rfl) 9),
    writeRule_ofWrite 10 (amplitudeEffect_deriveAmplitude (fun _ => rfl) 10)⟩

/-- Settles O20, by the scheme and the four flags on numbers. -/
theorem shapeWriteRestarts : Obligations.ShapeWriteRestarts :=
  writeRule_ofWrite 13 fun b v => by
    refine ⟨?_, rfl, rfl⟩
    change (deriveShape (b.storeReg 13 v)).env = _
    simp only [deriveShape_env, shapeContinue_eq, shapeAttack_eq, shapeAlternate_eq, shapeHold_eq,
      decide_eq_true_eq]
    rfl

/-- Settles O21: the decode derives nothing, and samples read only what is derived. -/
theorem storedOnlyWrites : Obligations.StoredOnlyWrites := by
  refine ⟨writeRule_ofWrite 14 fun b v => ⟨rfl, rfl, rfl⟩,
    writeRule_ofWrite 15 fun b v => ⟨rfl, rfl, rfl⟩, fun s t value index hindex h => ?_⟩
  rw [exec_ofWrite] at h
  obtain rfl : writeCell index value (deriveOf index) s = t := by injection h
  refine ⟨fun ha => ⟨maskByte value, maskByte_toNat value, ?_⟩, fun n => ?_⟩
  · rw [exec_rd_inside, writeCell_of_accepts ha]
    simp [State.finish]
  · obtain ⟨hv, hn, he⟩ := writeCell_storedOnly hindex value s
    exact sampleTimes_reply_congr (writeCell_config ..) hv hn he n

/-- Settles O24, by the two cases of a read, the bank after reset and the word of a read. -/
theorem readRegister : Obligations.ReadRegister := by
  refine ⟨fun s index => exec_rd_inside index s, fun s index h => exec_rd_outside index s h,
    fun s t index h => ?_, decode_read_word⟩
  rw [exec_reset] at h
  obtain rfl : s.finish Block.reset .done = t := by injection h
  rw [exec_rd_inside]
  simp [State.finish]

/-- Settles O25: the block after RESET is the block after construction. -/
theorem resetSetsListedState : Obligations.ResetSetsListedState := fun s =>
  ⟨_, exec_reset s, Block.reset_readReg, Block.reset_voiceAt, rfl, rfl, rfl, rfl, rfl, rfl,
    by decide⟩

end Sys2Proof.Machine

/-! SUPPORT. The tone tick by its two cases, and any number of ticks in closed form (R180, R181). -/

namespace Sys2Proof.Machine

/-- Below the last count of a period a tick only counts. -/
theorem toneTick_of_lt {v : Voice} (h : v.counter + 1 < v.period) :
    toneTick v = { v with counter := v.counter + 1 } := if_neg (by omega)

/-- At the last count of a period, or past it, a tick clears the counter and toggles. -/
theorem toneTick_of_le {v : Voice} (h : v.period ≤ v.counter + 1) :
    toneTick v = { v with counter := 0, output := 1 - v.output } := if_pos h

/-- The other output level, as the specification's flip. -/
theorem toggle_eq_ite (o : Fin 2) : 1 - o = if o = 0 then 1 else 0 := by
  fin_cases o <;> rfl

/-- The other output level, counted modulo 2. -/
theorem toggle_val (o : Fin 2) : (1 - o).val = (o.val + 1) % 2 := by
  fin_cases o <;> rfl

/-- From a counter below the period the counter runs around the period, and the output toggles once
each time around. -/
theorem iterate_toneTick {v : Voice} (h : v.counter < v.period) (n : ℕ) :
    (toneTick^[n] v).counter = (v.counter + n) % v.period ∧
    (toneTick^[n] v).output.val = (v.output.val + (v.counter + n) / v.period) % 2 := by
  induction n generalizing v with
  | zero => simp [Nat.mod_eq_of_lt h, Nat.div_eq_of_lt h, Nat.mod_eq_of_lt v.output.isLt]
  | succ n ih =>
    rw [Function.iterate_succ_apply]
    rcases Nat.lt_or_ge (v.counter + 1) v.period with hcount | htoggle
    · have hnext : v.counter + (n + 1) = v.counter + 1 + n := by omega
      rw [toneTick_of_lt hcount, hnext]
      exact ih hcount
    · have hpos : 0 < v.period := by omega
      have haround : v.counter + (n + 1) = v.period + n := by omega
      have hrest := ih (v := { v with counter := 0, output := 1 - v.output }) hpos
      simp only [Nat.zero_add, toggle_val] at hrest
      obtain ⟨hcounter, houtput⟩ := hrest
      rw [toneTick_of_le htoggle, haround, Nat.add_mod_left, Nat.add_div_left n hpos]
      exact ⟨hcounter, houtput.trans (by omega)⟩

end Sys2Proof.Machine

/-! CLAIMS. The tone generators (41_tone.md). -/

namespace Sys2Proof.Machine

/-- Settles O29, by the tick of each voice on its own and the two cases of a tone tick. -/
theorem sampleTicksTones : Obligations.SampleTicksTones := fun s =>
  ⟨_, exec_sample s, fun k =>
    ⟨fun hcount => (tick_voiceAt ..).trans (toneTick_of_lt hcount),
      fun htoggle => by
        rw [State.finish_block, tick_voiceAt, toneTick_of_le htoggle, toggle_eq_ite]⟩⟩

/-- Settles O34: repeated samples tick the voice alone, and the counter starts at 0, below the
period. -/
theorem toneIsSquareWave : Obligations.ToneIsSquareWave := fun s k n hcounter hperiod => by
  obtain ⟨t, ht, hblock, -⟩ := sampleTimes_eq n s
  have hwave := iterate_toneTick (v := s.block.voiceAt k) (by omega) n
  rw [hcounter, Nat.zero_add, ← iterate_tick_voiceAt s.config, ← hblock] at hwave
  exact ⟨t, ht, hwave⟩

end Sys2Proof.Machine

/-! SUPPORT. The noise tick by its two cases, and what each request does to the LFSR (R190, R191,
R193). -/

namespace Sys2Proof.Machine

/-- Below the last count of a period a noise tick only counts. -/
theorem noiseTick_of_lt {n : Noise} (h : n.counter + 1 < n.period) :
    noiseTick n = { n with counter := n.counter + 1 } := if_neg (by omega)

/-- At the last count of a period, or past it, a noise tick clears the counter and steps the LFSR. -/
theorem noiseTick_of_le {n : Noise} (h : n.period ≤ n.counter + 1) :
    noiseTick n = lfsrStep { n with counter := 0 } := if_pos h

/-- The output of an LFSR step is bit 1 of the LFSR, which the shift makes bit 0. -/
theorem lfsrStep_output_val (n : Noise) :
    (lfsrStep n).output.val = n.lfsr.toNat / 2 % 2 := by
  have hbit : (lfsrNext n.lfsr).getLsbD 0 = decide (n.lfsr.toNat / 2 % 2 = 1) := by
    rw [BitVec.getLsbD, Nat.testBit_eq_decide_div_mod_eq, lfsrNext_toNat, decide_eq_decide]
    omega
  simp only [lfsrStep, hbit, decide_eq_true_eq]
  split <;> simp <;> omega

/-- `t` has the LFSR of `s` shifted at most `asked` times. -/
def LfsrShifted (asked : ℕ) (s t : State) : Prop :=
  ∃ n ≤ asked, t.block.noise.lfsr = lfsrNext^[n] s.block.noise.lfsr

/-- An LFSR that is kept is shifted 0 times, whatever is asked. -/
theorem lfsrShifted_of_eq {s t : State} (h : t.block.noise.lfsr = s.block.noise.lfsr) (asked : ℕ) :
    LfsrShifted asked s t := ⟨0, asked.zero_le, h⟩

/-- Each noise tick shifts the LFSR at most once. -/
theorem iterate_noiseTick_lfsr (n : ℕ) (a : Noise) :
    ∃ k ≤ n, (noiseTick^[n] a).lfsr = lfsrNext^[k] a.lfsr := by
  induction n generalizing a with
  | zero => exact ⟨0, Nat.le_refl 0, rfl⟩
  | succ n ih =>
    obtain ⟨k, hk, h⟩ := ih (noiseTick a)
    rw [Function.iterate_succ_apply, h, noiseTick_lfsr]
    split
    · exact ⟨k + 1, Nat.succ_le_succ hk, rfl⟩
    · exact ⟨k, Nat.le_succ_of_le hk, rfl⟩

/-- A block ticked `n` times has its LFSR shifted at most `n` times. -/
theorem lfsrShifted_of_iterate_tick {s t : State} {c : Config} {n : ℕ}
    (h : t.block = (tick c)^[n] s.block) : LfsrShifted n s t := by
  rw [LfsrShifted, h, iterate_tick_noise]
  exact iterate_noiseTick_lfsr n s.block.noise

/-- No decode of a register loads the LFSR. -/
@[simp] theorem deriveOf_lfsr (i : Fin 16) (b : Block) :
    (deriveOf i b).noise.lfsr = b.noise.lfsr := by
  fin_cases i <;> rfl

/-- A register write, accepted or not, keeps the LFSR. -/
theorem writeCell_deriveOf_lfsr (i : Fin 16) (value : Int) (s : State) :
    (writeCell i value (deriveOf i) s).block.noise.lfsr = s.block.noise.lfsr := by
  obtain h | h := writeCell_block i value (deriveOf i) s <;> simp [h]

/-- What the typed write can do: a write of a cell, or `OutOfRange` (R140, R141). -/
theorem callWrite_cases (index value : Int) (s : State) :
    (∃ i, callWrite index value s = .next (writeCell i value (deriveOf i) s)) ∨
      callWrite index value s = .next (s.raise (.outOfRange index)) := by
  unfold callWrite
  split
  · exact .inl ⟨_, exec_ofWrite ..⟩
  · exact .inr rfl

/-- A typed write keeps the LFSR. -/
theorem callWrite_lfsr {index value : Int} {s t : State} (h : callWrite index value s = .next t) :
    t.block.noise.lfsr = s.block.noise.lfsr := by
  obtain ⟨i, hw⟩ | hw := callWrite_cases index value s <;> rw [hw] at h <;> cases h
  · exact writeCell_deriveOf_lfsr ..
  · rfl

/-- A command word that decodes does what its instruction does (R113). -/
theorem runCommand_of_decode {w : CommandWord} {i : Instr} (h : decode w = .ok i) (s : State) :
    runCommand w s = exec i s := by
  simp [runCommand, h]

/-- A command word that answers a next state decodes to an instruction that answers it. -/
theorem runCommand_next {w : CommandWord} {s t : State} (h : runCommand w s = .next t) :
    ∃ i, decode w = .ok i ∧ exec i s = .next t := by
  cases hd : decode w with
  | ok i => exact ⟨i, rfl, runCommand_of_decode hd s ▸ h⟩
  | error e => simp [runCommand, hd] at h

/-- An instruction other than RESET and SAMPLE keeps the LFSR. -/
theorem exec_lfsr_of_ne {i : Instr} {s t : State} (h : exec i s = .next t) (hreset : i ≠ .reset)
    (hsample : i ≠ .sample) : t.block.noise.lfsr = s.block.noise.lfsr := by
  obtain ⟨_, _, -, -, rfl⟩ | ⟨_, _, -, -, rfl⟩ | ⟨rfl, -⟩ | ⟨rfl, -⟩ | ⟨_, -, rfl⟩ |
    ⟨_, -, -, rfl⟩ := exec_cases h
  · simp
  · rfl
  · exact absurd rfl hreset
  · exact absurd rfl hsample
  · rfl
  · rfl

/-- RESET seeds the LFSR with 1 (R170, R193). -/
theorem exec_reset_lfsr {s t : State} (h : exec .reset s = .next t) :
    t.block.noise.lfsr = 1 := by
  rw [exec_reset] at h
  cases h
  rfl

/-- SAMPLE shifts the LFSR at most once. -/
theorem exec_sample_lfsrShifted {s t : State} (h : exec .sample s = .next t) :
    LfsrShifted 1 s t := by
  rw [exec_sample] at h
  cases h
  exact lfsrShifted_of_iterate_tick (n := 1) rfl

/-- Every seeding request leaves the LFSR at 1. -/
theorem serve_lfsr_of_seeds {r : Request} {s t : State} (hr : SeedsLfsr r)
    (h : serve r s = .next t) : t.block.noise.lfsr = 1 := by
  obtain rfl | ⟨w, rfl, hw⟩ | ⟨rate, rfl⟩ := hr
  · exact exec_reset_lfsr h
  · exact exec_reset_lfsr ((runCommand_of_decode hw s).symm.trans h)
  · change construct rate s = .next t at h
    unfold construct at h
    split at h <;> cases h
    rfl

/-- Every other request shifts the LFSR at most once for each sample it asks for. -/
theorem serve_lfsrShifted {r : Request} {s t : State} (hr : ¬SeedsLfsr r)
    (h : serve r s = .next t) : LfsrShifted (samplesAsked r) s t := by
  match r, h with
  | .overlapping _ _, h => cases h
  | .issue (.command w), h =>
    obtain ⟨i, hw, hi⟩ := runCommand_next h
    by_cases hsample : i = .sample
    · subst hsample
      rw [samplesAsked, if_pos hw]
      exact exec_sample_lfsrShifted hi
    · have hreset : i ≠ .reset := fun e => hr (.inr (.inl ⟨w, rfl, e ▸ hw⟩))
      exact lfsrShifted_of_eq (exec_lfsr_of_ne hi hreset hsample) _
  | .issue (.writeRegister _ _), h => exact lfsrShifted_of_eq (callWrite_lfsr h) _
  | .issue (.readRegister index), h =>
    exact lfsrShifted_of_eq (exec_lfsr_of_ne (i := .rd index) h nofun nofun) _
  | .issue .reset, _ => exact absurd (.inl rfl) hr
  | .issue .generateSample, h => exact exec_sample_lfsrShifted h
  | .issue (.processSamples bufferLength count), h =>
    change processSamples bufferLength count s = .next t at h
    unfold processSamples at h
    split at h <;> cases h
    exact lfsrShifted_of_iterate_tick (generateMany_block ..)
  | .issue (.construct rate), _ => exact absurd (.inr (.inr ⟨rate, rfl⟩)) hr

end Sys2Proof.Machine

/-! CLAIMS. The noise generator (42_noise.md). -/

namespace Sys2Proof.Machine

/-- Settles O30, by the two cases of a noise tick and the LFSR step on numbers. -/
theorem sampleTicksNoise : Obligations.SampleTicksNoise := fun s =>
  ⟨_, exec_sample s,
    fun hcount => (tick_noise ..).trans (noiseTick_of_lt hcount),
    fun hstep => by
      rw [State.finish_block, tick_noise, noiseTick_of_le hstep]
      exact ⟨rfl, rfl, lfsrNext_toNat _, lfsrStep_output_val _⟩⟩

/-- Settles O36: the idle step keeps the whole state, and a request seeds the LFSR or shifts it at
most once a sample. -/
theorem lfsrNeverLoaded : Obligations.LfsrNeverLoaded := by
  refine fun s t h => ⟨fun hidle => ?_, fun request rest hp => ?_⟩
  · rw [step_idle hidle] at h
    cases h
    rfl
  · rw [step_request hp] at h
    exact ⟨fun hseeds => serve_lfsr_of_seeds hseeds h,
      fun hother => serve_lfsrShifted (s := { s with pending := rest }) hother h⟩

end Sys2Proof.Machine

/-! SUPPORT. The envelope tick and the move of the phase, each by its cases (R201 to R208). -/

namespace Sys2Proof.Machine

/-- The hold gate: a holding envelope without continue does not tick at all (R201). -/
theorem envelopeTick_of_gated {e : Envelope} (h : e.continueFlag = false ∧ e.holding = true)
    (rule : EnvOutputRule) : envelopeTick rule e = e := if_pos h

/-- Past the hold gate, a tick is the count and the output update of `EveryTick` (R202, R208). -/
theorem envelopeTick_of_not_gated {e : Envelope}
    (h : ¬(e.continueFlag = false ∧ e.holding = true)) (rule : EnvOutputRule) :
    envelopeTick rule e =
      if rule = .everyTick ∧ (envelopeCount rule e).holding = false then
        copyPhase (envelopeCount rule e)
      else envelopeCount rule e := if_neg h

/-- Below the last count of a period the envelope only counts (R202). -/
theorem envelopeCount_of_lt {e : Envelope} (h : e.counter + 1 < e.period) (rule : EnvOutputRule) :
    envelopeCount rule e = { e with counter := e.counter + 1 } := if_neg (by omega)

/-- At the last count of a period, or past it, the envelope steps, its counter cleared (R203). -/
theorem envelopeCount_of_le {e : Envelope} (h : e.period ≤ e.counter + 1) (rule : EnvOutputRule) :
    envelopeCount rule e = envelopeStep rule { e with counter := 0 } := if_pos h

/-- A step of a holding envelope does nothing (R203). -/
theorem envelopeStep_of_holding {e : Envelope} (h : e.holding = true) (rule : EnvOutputRule) :
    envelopeStep rule e = e := by
  simp [envelopeStep, h]

/-- A step of a running envelope moves the phase; the readings `OnStep` and `OnStepAfterPolicy`
then update the output (R208). -/
theorem envelopeStep_of_running {e : Envelope} (h : e.holding = false) (rule : EnvOutputRule) :
    envelopeStep rule e =
      if rule = .onStep ∨ rule = .onStepAfterPolicy ∧ (movePhase e).holding = false then
        copyPhase (movePhase e)
      else movePhase e := by
  cases rule <;> simp [envelopeStep, h]

/-- A tick below the period: the count, and the output under `EveryTick` (R202, R208). -/
theorem envelopeTick_of_lt {e : Envelope} (hgate : ¬(e.continueFlag = false ∧ e.holding = true))
    (hcount : e.counter + 1 < e.period) (rule : EnvOutputRule) :
    envelopeTick rule e = { e with
      counter := e.counter + 1
      output := if rule = .everyTick ∧ e.holding = false then e.phase else e.output } := by
  rw [envelopeTick_of_not_gated hgate, envelopeCount_of_lt hcount]
  split <;> rfl

/-- A holding envelope with continue clears its counter at the end of a period, and that is all. -/
theorem envelopeTick_of_le_holding {e : Envelope} (hhold : e.holding = true)
    (hcontinue : e.continueFlag = true) (hstep : e.period ≤ e.counter + 1)
    (rule : EnvOutputRule) : envelopeTick rule e = { e with counter := 0 } := by
  rw [envelopeTick_of_not_gated (by simp [hcontinue]), envelopeCount_of_le hstep,
    envelopeStep_of_holding (e := { e with counter := 0 }) hhold, if_neg (by simp [hhold])]

/-- A move of the phase does not read the counter. -/
theorem movePhase_clearCounter (e : Envelope) :
    movePhase { e with counter := 0 } = { movePhase e with counter := 0 } := by
  simp only [movePhase, movedPhase, topPolicy, bottomPolicy]
  split_ifs <;> rfl

/-- A running envelope moves its phase at the end of a period. The output follows the phase: always
under `OnStep`, and under the other two readings unless the policy has made the envelope hold. -/
theorem envelopeTick_of_le_running {e : Envelope} (hrun : e.holding = false)
    (hstep : e.period ≤ e.counter + 1) (rule : EnvOutputRule) :
    envelopeTick rule e = { movePhase e with
      counter := 0
      output := if rule = .onStep ∨ (movePhase e).holding = false then (movePhase e).phase
        else e.output } := by
  obtain ⟨-, -, -, -, -, houtput⟩ := movePhase_fields e
  rw [envelopeTick_of_not_gated (by simp [hrun]), envelopeCount_of_le hstep,
    envelopeStep_of_running (e := { e with counter := 0 }) hrun, movePhase_clearCounter,
    ← houtput]
  cases rule <;> cases hhold : (movePhase e).holding <;> simp [copyPhase, hhold]

/-- Below the top a rising phase moves up by 1 (R204). -/
theorem movePhase_of_rising {e : Envelope} (hattack : e.attack = true) (h : e.phase.val < 31) :
    movePhase e = { e with phase := ⟨e.phase.val + 1, by omega⟩ } := by
  have hmoved : movedPhase e = e.phase.val + 1 := if_pos hattack
  have hnext : Fin.ofNat 32 (movedPhase e).toNat = ⟨e.phase.val + 1, by omega⟩ :=
    Fin.ext (by simp only [Fin.val_ofNat]; omega)
  rw [movePhase, if_neg (by omega), if_neg (by omega), hnext]

/-- Above the bottom a falling phase moves down by 1 (R205). -/
theorem movePhase_of_falling {e : Envelope} (hattack : e.attack = false) (h : 0 < e.phase.val) :
    movePhase e = { e with phase := ⟨e.phase.val - 1, by omega⟩ } := by
  have hmoved : movedPhase e = e.phase.val - 1 := if_neg (by simp [hattack])
  have hnext : Fin.ofNat 32 (movedPhase e).toNat = ⟨e.phase.val - 1, by omega⟩ :=
    Fin.ext (by simp only [Fin.val_ofNat]; omega)
  rw [movePhase, if_neg (by omega), if_neg (by omega), hnext]

/-- A rising phase leaves the top by the top policy (R204). -/
theorem movePhase_of_top {e : Envelope} (hattack : e.attack = true) (h : e.phase.val = 31) :
    movePhase e = topPolicy e := by
  have hmoved : movedPhase e = e.phase.val + 1 := if_pos hattack
  rw [movePhase, if_pos (by omega)]

/-- A falling phase leaves the bottom by the bottom policy (R205). -/
theorem movePhase_of_bottom {e : Envelope} (hattack : e.attack = false) (h : e.phase.val = 0) :
    movePhase e = bottomPolicy e := by
  have hmoved : movedPhase e = e.phase.val - 1 := if_neg (by simp [hattack])
  rw [movePhase, if_neg (by omega), if_pos (by omega)]

/-- The top policy of a running envelope that rises: hold, turn or wrap (R206). -/
theorem topPolicy_cases {e : Envelope} (hattack : e.attack = true) (hrun : e.holding = false) :
    let f := topPolicy e
    (e.continueFlag = false → f.phase = 31 ∧ f.attack = true ∧ f.holding = true) ∧
    (e.continueFlag = true → e.alternate = true →
      f.phase = 31 ∧ f.attack = false ∧ f.holding = false) ∧
    (e.continueFlag = true → e.alternate = false →
      f.phase = 0 ∧ f.attack = true ∧ f.holding = false) := by
  refine ⟨fun hhold => ?_, fun hcontinue hturn => ?_, fun hcontinue hwrap => ?_⟩
  · simp [topPolicy, hhold, hattack]
  · simp [topPolicy, hcontinue, hturn, hrun]
  · simp [topPolicy, hcontinue, hwrap, hattack, hrun]

/-- The bottom policy of a running envelope that falls: hold, turn or wrap (R207). -/
theorem bottomPolicy_cases {e : Envelope} (hattack : e.attack = false) (hrun : e.holding = false) :
    let f := bottomPolicy e
    (e.continueFlag = false → f.phase = 0 ∧ f.attack = false ∧ f.holding = true) ∧
    (e.continueFlag = true → e.alternate = true →
      f.phase = 0 ∧ f.attack = true ∧ f.holding = false) ∧
    (e.continueFlag = true → e.alternate = false →
      f.phase = 31 ∧ f.attack = false ∧ f.holding = false) := by
  refine ⟨fun hhold => ?_, fun hcontinue hturn => ?_, fun hcontinue hwrap => ?_⟩
  · simp [bottomPolicy, hhold, hattack]
  · simp [bottomPolicy, hcontinue, hturn, hrun]
  · simp [bottomPolicy, hcontinue, hwrap, hattack, hrun]

end Sys2Proof.Machine

/-! CLAIMS. The envelope generator (43_envelope.md). -/

namespace Sys2Proof.Machine

/-- Settles O31, by the hold gate and the tick below the period. -/
theorem sampleCountsEnvelope : Obligations.SampleCountsEnvelope := fun s =>
  ⟨_, exec_sample s,
    fun hcontinue hhold => (tick_env ..).trans (envelopeTick_of_gated ⟨hcontinue, hhold⟩ _),
    fun hgate hcount => (tick_env ..).trans (envelopeTick_of_lt hgate hcount _)⟩

/-- Settles O32, by the tick of a running envelope at the end of a period: the move of the phase,
its policy at either end, and the output by the reading in force. -/
theorem sampleStepsEnvelope : Obligations.SampleStepsEnvelope := fun s => by
  refine ⟨_, exec_sample s, fun hrun hstep => ?_, fun hhold hcontinue hstep =>
    (tick_env ..).trans (envelopeTick_of_le_holding hhold hcontinue hstep _)⟩
  obtain ⟨hperiod, -, hcontinue, halternate, hhold, -⟩ := movePhase_fields s.block.env
  rw [State.finish_block, tick_env, envelopeTick_of_le_running hrun hstep]
  refine ⟨rfl, hperiod, hcontinue, halternate, hhold, ?rising, ?top, ?falling, ?bottom,
    fun hrule => if_pos (.inl hrule), fun hrule => ?output⟩
  case rising =>
    intro hattack hphase
    rw [movePhase_of_rising hattack hphase]
    exact ⟨rfl, hattack, hrun⟩
  case top =>
    intro hattack hphase
    rw [movePhase_of_top hattack hphase]
    exact topPolicy_cases hattack hrun
  case falling =>
    intro hattack hphase
    rw [movePhase_of_falling hattack hphase]
    exact ⟨Nat.sub_add_cancel hphase, hattack, hrun⟩
  case bottom =>
    intro hattack hphase
    rw [movePhase_of_bottom hattack hphase]
    exact bottomPolicy_cases hattack hrun
  case output =>
    cases (movePhase s.block.env).holding <;> simp [hrule]

end Sys2Proof.Machine

/-! SUPPORT. The exact sample as a real number: the volume table, the sum of the voices and the soft
clip, each with the real formula it stands for (R230, R237 to R241). -/

namespace Sys2Proof.Machine

/-- The entries of the volume table at an odd index are whole numbers of 1/256 (R230). -/
theorem realVolume_odd (n : ℕ) : realVolume (2 * n + 1) = 2 ^ n / 256 := by
  have hexp : (((2 * n + 1 : ℕ) : ℝ) - 15) / 2 = (n : ℝ) - (7 : ℕ) := by push_cast; ring
  rw [realVolume, if_neg (Nat.succ_ne_zero _), hexp, Real.rpow_sub_natCast two_ne_zero,
    Real.rpow_natCast]
  ring

/-- The entries at an even index but 0 are whole numbers of `√2 / 256` (R230): each is `√2` times
the entry before it. -/
theorem realVolume_even (n : ℕ) : realVolume (2 * n + 2) = 2 ^ n * √2 / 256 := by
  have hexp : (((2 * n + 2 : ℕ) : ℝ) - 15) / 2 = (n : ℝ) + 1 / 2 - (7 : ℕ) := by push_cast; ring
  rw [realVolume, if_neg (Nat.succ_ne_zero _), hexp, Real.rpow_sub_natCast two_ne_zero,
    Real.rpow_add two_pos, Real.rpow_natCast, ← Real.sqrt_eq_rpow]
  ring

/-- The volume table of the model is the table of R230 over the reals, continued to index 31 (D11). -/
theorem volumeLevel_value (i : Fin 32) : (volumeLevel i).value = realVolume i.val := by
  obtain ⟨i, hi⟩ := i
  obtain ⟨n, rfl | rfl⟩ := Nat.even_or_odd' i
  · cases n with
    | zero => simp [volumeLevel, realVolume]
    | succ n =>
      refine Eq.trans ?_ (realVolume_even n).symm
      have hhalf : (2 * (n + 1) - 2) / 2 = n := by omega
      simp [volumeLevel, Level.value, hhalf]
  · refine Eq.trans ?_ (realVolume_odd n).symm
    simp [volumeLevel, Level.value, Nat.add_mod]

/-- A voice adds its real level to the sum, and nothing if its gate is closed (R237). -/
theorem addVoice_value (c : Config) (b : Block) (sum : Level) (k : Fin 3) :
    (addVoice c b sum k).value = sum.value + realLevel c b k := by
  simp only [addVoice, contribution, realLevel, gate_iff]
  by_cases hopen : GateOpen (b.voiceAt k) b.noise
  · simp only [if_pos hopen, Level.value_add, volumeLevel_value, levelIndex_val]
  · simp only [if_neg hopen, add_zero]

/-- The exact sum is the real sum of the three voices (R237). -/
theorem voiceSum_value (c : Config) (b : Block) :
    (voiceSum c b).value = realLevel c b 0 + realLevel c b 1 + realLevel c b 2 := by
  simp only [voiceSum, addVoice_value, Level.value_zero, zero_add]

/-- The test of the soft clip on whole numbers is the strict comparison of R239 over the reals: up to
768 ones, what `√2 * roots` has to exceed is compared by its square. -/
theorem exceedsThree_iff (x : Level) : x.exceedsThree = true ↔ 1 < x.value / 3 := by
  have hvalue : 1 < x.value / 3 ↔ (768 : ℝ) < x.ones + x.roots * √2 := by
    rw [Level.value]
    constructor <;> intro h <;> linarith
  rw [hvalue, Level.exceedsThree, Bool.or_eq_true, decide_eq_true_eq, decide_eq_true_eq]
  have hroots : 0 ≤ x.roots * √2 := by positivity
  obtain hmany | hfew := lt_or_ge 768 x.ones
  · have hreal : (768 : ℝ) < x.ones := by exact_mod_cast hmany
    exact iff_of_true (.inl hmany) (by linarith)
  · have hreal : (x.ones : ℝ) ≤ 768 := by exact_mod_cast hfew
    have hsquare : ((x.roots : ℝ) * √2) ^ 2 = 2 * (x.roots : ℝ) ^ 2 := by
      rw [mul_pow, Real.sq_sqrt zero_le_two, mul_comm]
    rw [or_iff_right hfew.not_gt, ← sub_lt_iff_lt_add', ← sq_lt_sq₀ (sub_nonneg.mpr hreal) hroots,
      hsquare, ← Nat.cast_lt (α := ℝ)]
    push_cast [Nat.cast_sub hfew]
    exact Iff.rfl

/-- The exact sample is the sum divided by 3, soft-clipped and scaled (R238 to R240). -/
theorem exactSample_value (sum : Level) :
    (exactSample sum).value = softClip (sum.value / 3) * (3 / 10) := by
  simp only [exactSample, softClip, exceedsThree_iff]
  split <;> rfl

/-- The exact value of the mix is `Mix()` over the reals (R241). -/
theorem mix_exact_value (c : Config) (b : Block) : (mix c b).exact.value = realMix c b := by
  rw [mix, exactSample_value, voiceSum_value, realMix]

end Sys2Proof.Machine

/-! SUPPORT. What an instruction reads of the state (R243). -/

namespace Sys2Proof.Machine

/-- An instruction completes with a block and a result that the block and the parameters fix: one
pair serves every state that has them, whatever its rate, its queue and its earlier result
(R243). -/
theorem exec_eq_finish (i : Instr) (b : Block) (c : Config) :
    ∃ b' r, ∀ s : State, s.block = b → s.config = c → exec i s = .next (s.finish b' r) := by
  obtain ⟨index, value, rfl⟩ | rfl | rfl | ⟨index, rfl⟩ := instr_shape i
  · by_cases haccepted : valueAccepted c.writePolicy value = true
    · refine ⟨deriveOf index (b.storeReg index (maskByte value)), .done, fun s hb hc => ?_⟩
      rw [exec_ofWrite, writeCell_eq, hb, hc, if_pos haccepted]
    · refine ⟨b, .error (.invalidValue value), fun s hb hc => ?_⟩
      rw [exec_ofWrite, writeCell_eq, hc, if_neg haccepted, ← hb]
      rfl
  · exact ⟨Block.reset, .done, fun s _ _ => exec_reset s⟩
  · refine ⟨tick c b, .sample (mix c (tick c b)), fun s hb hc => ?_⟩
    rw [exec_sample, hb, hc]
  · by_cases hinside : 0 ≤ index ∧ index ≤ 15
    · obtain ⟨n, rfl⟩ := Int.eq_ofNat_of_zero_le hinside.1
      have hn : n < 16 := by omega
      refine ⟨b, .byte (b.readReg ⟨n, hn⟩), fun s hb _ => ?_⟩
      rw [← hb]
      exact exec_rd_inside ⟨n, hn⟩ s
    · refine ⟨b, .error (.outOfRange index), fun s hb _ => ?_⟩
      rw [exec_rd_outside index s hinside, ← hb]
      rfl

end Sys2Proof.Machine

/-! CLAIMS. The mixer (44_mixer.md). -/

namespace Sys2Proof.Machine

/-- Settles O41: the sample is the mix of the block its ticks left, and the mix stands for `Mix()`
over the reals. -/
theorem sampleIsRealMix : Obligations.SampleIsRealMix := fun s =>
  ⟨_, _, exec_sample s, rfl, mix_exact_value _ _⟩

/-- Settles O47: both runs complete with the one block and result that the common block and
parameters fix. -/
theorem operationsReadBlockAndConfigOnly : Obligations.OperationsReadBlockAndConfigOnly := by
  intro i s s' t t' hblock hconfig ht ht'
  obtain ⟨b, r, hfinish⟩ := exec_eq_finish i s.block s.config
  rw [hfinish s rfl rfl] at ht
  rw [hfinish s' hblock.symm hconfig.symm] at ht'
  cases ht
  cases ht'
  exact ⟨rfl, rfl⟩

end Sys2Proof.Machine

/-! SUPPORT. The typed write outside the bank, and why an operation that answers an error does nothing but raise it (R273). -/

namespace Sys2Proof.Machine

/-- The typed write outside the bank raises `OutOfRange`, whatever the value (R141, R275). -/
theorem callWrite_outside {index : Int} (h : ¬(0 ≤ index ∧ index ≤ 15)) (value : Int) (s : State) :
    callWrite index value s = .next (s.raise (.outOfRange index)) := if_neg h

/-- A state whose answer was raised and reads `e` is the one that raised `e`. -/
theorem raise_eq_of_reply {s : State} {d e : Error} (h : (s.raise d).reply = some (.error e)) :
    s.raise d = s.raise e := by
  obtain rfl : d = e := by simpa using h
  rfl

/-- An instruction that answers an error raises it: what stores, resets, ticks or reads answers
no error. -/
theorem exec_error {i : Instr} {s t : State} {e : Error} (h : exec i s = .next t)
    (hr : t.reply = some (.error e)) : t = s.raise e := by
  obtain ⟨_, _, -, -, rfl⟩ | ⟨_, _, -, -, rfl⟩ | ⟨-, rfl⟩ | ⟨-, rfl⟩ | ⟨_, -, rfl⟩ |
    ⟨_, -, -, rfl⟩ := exec_cases h
  case inr.inl => exact raise_eq_of_reply hr
  case inr.inr.inr.inr.inr => exact raise_eq_of_reply hr
  all_goals simp at hr

/-- A request that answers an error raises it: a batch and a construction answer none. -/
theorem serve_error {r : Request} {s t : State} {e : Error} (h : serve r s = .next t)
    (hr : t.reply = some (.error e)) : t = s.raise e := by
  obtain ⟨_, hi⟩ | ⟨_, rfl⟩ | ⟨_, _, -, -, rfl⟩ | ⟨_, -, -, rfl⟩ := serve_cases h
  · exact exec_error hi hr
  · exact raise_eq_of_reply hr
  all_goals simp at hr

end Sys2Proof.Machine

/-! CLAIMS. The errors (60_exceptions.md). -/

namespace Sys2Proof.Machine

/-- Settles O14: a step is the service of its request, which raises the error it answers. -/
theorem errorChangesNoState : Obligations.ErrorChangesNoState := by
  intro s t request rest e hp ht hr
  rw [step_request hp] at ht
  exact serve_error ht hr

/-- Settles O10, by the write and the read at an index outside the bank. -/
theorem outOfRangeErrors : Obligations.OutOfRangeErrors := by
  refine fun s rest index hindex => ⟨fun value _ _ hp => ?_, fun hp => ?_⟩
  · rw [step_request hp]
    exact callWrite_outside hindex value _
  · rw [step_request hp]
    exact exec_rd_outside index _ hindex

end Sys2Proof.Machine

/-! SUPPORT. The command word and its fields, both ways, and the inversion of the decoder (R112 to
R117). -/

namespace Sys2Proof

/-- The fields of a word on numbers (R112). -/
theorem kindField_toNat (w : CommandWord) : (kindField w).toNat = w.toNat / 4096 := by
  have := w.isLt
  simp only [kindField, BitVec.extractLsb'_toNat, Nat.shiftRight_eq_div_pow]
  omega

theorem indexField_toNat (w : CommandWord) : (indexField w).toNat = w.toNat / 256 % 16 := by
  simp only [indexField, BitVec.extractLsb'_toNat, Nat.shiftRight_eq_div_pow]

theorem dataField_toNat (w : CommandWord) : (dataField w).toNat = w.toNat % 256 := by
  simp only [dataField, BitVec.extractLsb'_toNat, Nat.shiftRight_zero]

/-- The word of three fields on numbers (R112). -/
theorem commandWord_toNat (kind index : BitVec 4) (data : Byte) :
    (commandWord kind index data).toNat = 4096 * kind.toNat + 256 * index.toNat + data.toNat := by
  have := index.isLt
  have := data.isLt
  rw [commandWord, BitVec.toNat_append, BitVec.toNat_append,
    ← Nat.shiftLeft_add_eq_or_of_lt (by omega), ← Nat.shiftLeft_add_eq_or_of_lt (by omega),
    Nat.shiftLeft_eq, Nat.shiftLeft_eq]
  omega

@[simp] theorem kindField_commandWord (kind index : BitVec 4) (data : Byte) :
    kindField (commandWord kind index data) = kind := by
  have := kindField_toNat (commandWord kind index data)
  rw [commandWord_toNat] at this
  bv_omega

@[simp] theorem indexField_commandWord (kind index : BitVec 4) (data : Byte) :
    indexField (commandWord kind index data) = index := by
  have := indexField_toNat (commandWord kind index data)
  rw [commandWord_toNat] at this
  bv_omega

@[simp] theorem dataField_commandWord (kind index : BitVec 4) (data : Byte) :
    dataField (commandWord kind index data) = data := by
  have := dataField_toNat (commandWord kind index data)
  rw [commandWord_toNat] at this
  bv_omega

/-- A word is the word of its fields: they cover all 16 bits. -/
theorem commandWord_fields (w : CommandWord) :
    commandWord (kindField w) (indexField w) (dataField w) = w := by
  apply BitVec.eq_of_toNat_eq
  rw [commandWord_toNat, kindField_toNat, indexField_toNat, dataField_toNat]
  omega

/-- A word of kind 0 is the write of its data (R113). -/
@[simp] theorem decode_commandWord_write (index : BitVec 4) (data : Byte) :
    decode (commandWord 0 index data) = .ok (Instr.ofWrite index.toFin data.toNat) := by
  rw [decode_of_kind_write (kindField_commandWord ..), indexField_commandWord,
    dataField_commandWord]

/-- A word of kind 3 without data is a read (R113). -/
@[simp] theorem decode_commandWord_read (index : BitVec 4) :
    decode (commandWord 3 index 0) = .ok (.rd index.toNat) := by
  rw [decode_of_kind_read (kindField_commandWord ..) (dataField_commandWord ..),
    indexField_commandWord]

/-- A write is well formed if its value fits the data field. -/
theorem wellFormed_ofWrite (index : Fin 16) (value : Int) :
    (Instr.ofWrite index value).wellFormed = valueFits value := by
  fin_cases index <;> rfl

/-- The word of a write carries its index and the low byte of its value. -/
theorem encode_ofWrite (index : Fin 16) (value : Int) :
    encode (Instr.ofWrite index value) =
      commandWord 0 (BitVec.ofFin index) (BitVec.ofInt 8 value) := by
  fin_cases index <;> rfl

/-- An integer that fits a field of `n` bits is the number of its bits. -/
theorem toNat_ofInt_of_fits {n : ℕ} {value : Int} (h0 : 0 ≤ value) (hn : value < 2 ^ n) :
    ((BitVec.ofInt n value).toNat : Int) = value := by
  have : ((2 ^ n : ℕ) : Int) = 2 ^ n := by norm_cast
  rw [BitVec.toNat_ofInt, this, Int.emod_eq_of_lt h0 hn, Int.toNat_of_nonneg h0]

/-- The instruction a word decodes to, by its kind: there is no other (R113, R114). -/
theorem decode_cases {w : CommandWord} {i : Instr} (h : decode w = .ok i) :
    (∃ index data, w = commandWord 0 index data ∧ i = Instr.ofWrite index.toFin data.toNat) ∨
    (w = commandWord 1 0 0 ∧ i = .reset) ∨ (w = commandWord 2 0 0 ∧ i = .sample) ∨
    ∃ index, w = commandWord 3 index 0 ∧ i = .rd index.toNat := by
  have hw := commandWord_fields w
  unfold decode at h
  split_ifs at h with hwrite hreset hclear hsample hclear hread hclear <;> cases h
  · exact .inl ⟨_, _, hwrite ▸ hw.symm, rfl⟩
  · obtain ⟨hindex, hdata⟩ := hclear
    exact .inr (.inl ⟨by rw [← hw, hreset, hindex, hdata], rfl⟩)
  · obtain ⟨hindex, hdata⟩ := hclear
    exact .inr (.inr (.inl ⟨by rw [← hw, hsample, hindex, hdata], rfl⟩))
  · exact .inr (.inr (.inr ⟨_, by rw [← hw, hread, hclear, indexField_commandWord], rfl⟩))

/-- The kinds 4 to 15 are reserved (R113). -/
theorem decode_of_kind_reserved {w : CommandWord} (h : 4 ≤ (kindField w).toNat) :
    decode w = .error .reservedKind := by
  have hne : ∀ kind : BitVec 4, kind.toNat < 4 → kindField w ≠ kind := by
    rintro kind hkind rfl
    omega
  rw [decode, if_neg (hne 0 (by decide)), if_neg (hne 1 (by decide)), if_neg (hne 2 (by decide)),
    if_neg (hne 3 (by decide))]

/-- A word whose number is that of three fields is their word. -/
theorem eq_commandWord_of_toNat {w : CommandWord} {kind index : BitVec 4} {data : Byte}
    (h : w.toNat = 4096 * kind.toNat + 256 * index.toNat + data.toNat) :
    w = commandWord kind index data :=
  BitVec.eq_of_toNat_eq (h.trans (commandWord_toNat ..).symm)

end Sys2Proof

namespace Sys2Proof.Machine

/-- A command word that spells no instruction is refused with that word (R113, R114). -/
theorem runCommand_of_reserved {w : CommandWord} (h : ¬∃ i, decode w = .ok i) (s : State) :
    runCommand w s = .refused (.reservedCommand w) := by
  cases hd : decode w with
  | ok i => exact absurd ⟨i, hd⟩ h
  | error e => simp [runCommand, hd]

end Sys2Proof.Machine

/-! CLAIMS. The command word (30_encoding.md). -/

namespace Sys2Proof.Machine

/-- Settles O2: a write and a read by the fields of their words, the other two by their one word. -/
theorem decodeOfEncode : Obligations.DecodeOfEncode := by
  intro i hi
  obtain ⟨index, value, rfl⟩ | rfl | rfl | ⟨index, rfl⟩ := instr_shape i
  · rw [wellFormed_ofWrite, valueFits, Bool.and_eq_true, decide_eq_true_eq, decide_eq_true_eq] at hi
    obtain ⟨hlow, hhigh⟩ := hi
    rw [encode_ofWrite, decode_commandWord_write, toNat_ofInt_of_fits hlow (by omega)]
  · rfl
  · rfl
  · simp only [Instr.wellFormed, indexFits, Bool.and_eq_true, decide_eq_true_eq] at hi
    obtain ⟨hlow, hhigh⟩ := hi
    rw [encode, decode_commandWord_read, toNat_ofInt_of_fits hlow (by omega)]

/-- Settles O3, by the inversion of the decoder. -/
theorem encodeOfDecode : Obligations.EncodeOfDecode := by
  intro w i h
  obtain ⟨index, data, rfl, rfl⟩ | ⟨rfl, rfl⟩ | ⟨rfl, rfl⟩ | ⟨index, rfl, rfl⟩ := decode_cases h
  · have hdata := data.isLt
    rw [wellFormed_ofWrite, encode_ofWrite, BitVec.ofInt_natCast, BitVec.ofNat_toNat,
      BitVec.setWidth_eq]
    exact ⟨by simp [valueFits]; omega, rfl⟩
  · exact ⟨rfl, rfl⟩
  · exact ⟨rfl, rfl⟩
  · have hindex := index.isLt
    rw [encode, BitVec.ofInt_natCast, BitVec.ofNat_toNat, BitVec.setWidth_eq]
    exact ⟨by simp [Instr.wellFormed, indexFits]; omega, rfl⟩

/-- Settles O4: the number of a word gives its fields, and the fields its meaning. -/
theorem commandKinds : Obligations.CommandKinds := by
  intro w
  have hkind := kindField_toNat w
  have hindex := indexField_toNat w
  have hdata := dataField_toNat w
  refine ⟨fun hw index hi => ?write, fun hw hrest => ?reset, fun hw hrest => ?sample,
    fun hw hrest => ?read, fun hw => ?reserved⟩
  case write =>
    obtain rfl : (indexField w).toFin = index := Fin.ext (hindex.trans hi.symm)
    rw [decode_of_kind_write (BitVec.eq_of_toNat_eq (hkind.trans hw)), hdata]
  case reset =>
    rw [eq_commandWord_of_toNat (w := w) (kind := 1) (index := 0) (data := 0) (by simp; omega)]
    rfl
  case sample =>
    rw [eq_commandWord_of_toNat (w := w) (kind := 2) (index := 0) (data := 0) (by simp; omega)]
    rfl
  case read =>
    rw [decode_of_kind_read (BitVec.eq_of_toNat_eq (hkind.trans hw))
      (BitVec.eq_of_toNat_eq (hdata.trans hrest)), hindex]
  case reserved =>
    have hreserved := decode_of_kind_reserved (w := w) (by omega)
    refine ⟨hreserved, fun s rest hp => ?_⟩
    rw [step_request hp]
    exact runCommand_of_reserved (by simp [hreserved]) _

/-- Settles O5: the decoder's inversion gives the set, and each of its words decodes. -/
theorem decodableWords : Obligations.DecodableWords := by
  refine fun w => ⟨⟨?sound, ?complete⟩, fun hreserved s rest hp => ?refused⟩
  case sound =>
    rintro ⟨i, h⟩
    obtain ⟨index, data, rfl, -⟩ | ⟨rfl, -⟩ | ⟨rfl, -⟩ | ⟨index, rfl, -⟩ := decode_cases h <;>
      rw [commandWord_toNat]
    · have := index.isLt
      have := data.isLt
      exact .inl (by simp; omega)
    · exact .inr (.inl rfl)
    · exact .inr (.inr (.inl rfl))
    · exact .inr (.inr (.inr ⟨index.toNat, by omega, by simp⟩))
  case complete =>
    rintro (h | h | h | ⟨i, hi, h⟩)
    · have hkind : kindField w = 0 :=
        BitVec.eq_of_toNat_eq ((kindField_toNat w).trans (Nat.div_eq_of_lt (by omega)))
      exact ⟨_, decode_of_kind_write hkind⟩
    · rw [show w = 0x1000 from BitVec.eq_of_toNat_eq h]
      exact ⟨.reset, rfl⟩
    · rw [show w = 0x2000 from BitVec.eq_of_toNat_eq h]
      exact ⟨.sample, rfl⟩
    · obtain rfl : w = BitVec.ofNat 16 (0x3000 + 256 * i) :=
        BitVec.eq_of_toNat_eq (h.trans (Nat.mod_eq_of_lt (by omega)).symm)
      exact ⟨_, decode_read_word ⟨i, by omega⟩⟩
  case refused =>
    rw [step_request hp]
    exact runCommand_of_reserved hreserved _

/-- Settles O1, by running the decoder on each word. -/
theorem specWordsDecode : Obligations.SpecWordsDecode := by
  unfold Obligations.SpecWordsDecode
  decide

end Sys2Proof.Machine

/-! SUPPORT. What a step can make of the block, as one principle for invariants. -/

namespace Sys2Proof.Machine

/-- A property of the block that every write, RESET and every tick keep, every instruction keeps. -/
theorem exec_keeps {P : Block → Prop}
    (hwrite : ∀ i b v, P b → P (deriveOf i (b.storeReg i v))) (hreset : P Block.reset)
    (htick : ∀ c b, P b → P (tick c b)) {i : Instr} {s t : State} (h : exec i s = .next t)
    (hs : P s.block) : P t.block := by
  obtain ⟨index, value, -, -, rfl⟩ | ⟨_, _, -, -, rfl⟩ | ⟨-, rfl⟩ | ⟨-, rfl⟩ | ⟨_, -, rfl⟩ |
    ⟨_, -, -, rfl⟩ := exec_cases h
  · exact hwrite index _ _ hs
  · exact hs
  · exact hreset
  · exact htick _ _ hs
  · exact hs
  · exact hs

/-- What every tick keeps, any number of ticks keeps. -/
theorem iterate_tick_keeps {P : Block → Prop} (htick : ∀ c b, P b → P (tick c b)) (c : Config)
    (n : ℕ) {b : Block} (hb : P b) : P ((tick c)^[n] b) := by
  induction n generalizing b with
  | zero => exact hb
  | succ n ih => exact ih (htick c b hb)

/-- A property of the block that every write, RESET and every tick keep, every step keeps. -/
theorem step_keeps {P : Block → Prop}
    (hwrite : ∀ i b v, P b → P (deriveOf i (b.storeReg i v))) (hreset : P Block.reset)
    (htick : ∀ c b, P b → P (tick c b)) {s t : State} (h : step s = .next t) (hs : P s.block) :
    P t.block := by
  cases hp : s.pending with
  | nil =>
    rw [step_idle hp] at h
    cases h
    exact hs
  | cons r rest =>
    rw [step_request hp] at h
    obtain ⟨_, hi⟩ | ⟨_, rfl⟩ | ⟨_, count, -, -, rfl⟩ | ⟨_, -, -, rfl⟩ := serve_cases h
    · exact exec_keeps (s := { s with pending := rest }) hwrite hreset htick hi hs
    · exact hs
    · rw [State.finish_block, generateMany_block]
      exact iterate_tick_keeps htick _ count hs
    · exact hreset

end Sys2Proof.Machine

/-! SUPPORT. The ranges of R60 to R62: each generator's tick and each decode keeps them. -/

namespace Sys2Proof.Machine

/-- A tone tick keeps the counter below the period's bound. -/
theorem toneTick_inRange {v : Voice} (h : v.InRange) : (toneTick v).InRange := by
  obtain ⟨hlow, hhigh, hcounter⟩ := h
  obtain hcount | htoggle := Nat.lt_or_ge (v.counter + 1) v.period
  · rw [toneTick_of_lt hcount]
    exact ⟨hlow, hhigh, by dsimp only; omega⟩
  · rw [toneTick_of_le htoggle]
    exact ⟨hlow, hhigh, Nat.zero_le _⟩

/-- The shift never reaches 0 from another word: it drops bit 0 only, and a lone bit 0 is fed back
at bit 16 (R61). -/
theorem lfsrNext_ne_zero {l : LfsrWord} (h : l ≠ 0) : lfsrNext l ≠ 0 := by
  intro hzero
  have hnext : 0 = l.toNat / 2 + 65536 * ((l.toNat + l.toNat / 8) % 2) :=
    (congrArg BitVec.toNat hzero).symm.trans (lfsrNext_toNat l)
  have hlow : l.toNat / 2 = 0 := by omega
  have hfed : l.toNat / 8 = 0 := by omega
  exact h (BitVec.eq_of_toNat_eq (show l.toNat = 0 by omega))

/-- A noise tick keeps the counter below the period's bound and the LFSR off 0. -/
theorem noiseTick_inRange {n : Noise} (h : n.InRange) : (noiseTick n).InRange := by
  obtain ⟨hperiod, hcounter, hlfsr⟩ := h
  obtain hcount | hstep := Nat.lt_or_ge (n.counter + 1) n.period
  · rw [noiseTick_of_lt hcount]
    exact ⟨hperiod, by dsimp only; omega, hlfsr⟩
  · rw [noiseTick_of_le hstep]
    exact ⟨hperiod, Nat.zero_le _, lfsrNext_ne_zero hlfsr⟩

/-- A move of the phase holds only where there is no continue (R62, R206, R207). -/
theorem movePhase_holding {e : Envelope} (h : e.holding = true → e.continueFlag = false)
    (hholding : (movePhase e).holding = true) : (movePhase e).continueFlag = false := by
  obtain ⟨-, -, hcontinue, -⟩ := movePhase_fields e
  rw [hcontinue]
  cases hc : e.continueFlag with
  | false => rfl
  | true =>
    have hrun : (movePhase e).holding = e.holding := by
      simp only [movePhase, topPolicy, bottomPolicy, hc]
      split_ifs <;> simp_all
    exact absurd (h (hrun ▸ hholding)) (by simp [hc])

/-- An envelope tick keeps the counter below the period's bound, and holding to shapes without
continue. -/
theorem envelopeTick_inRange (rule : EnvOutputRule) {e : Envelope} (h : e.InRange) :
    (envelopeTick rule e).InRange := by
  by_cases hgate : e.continueFlag = false ∧ e.holding = true
  · rwa [envelopeTick_of_gated hgate]
  obtain ⟨hperiod, hcounter, hholding⟩ := h
  obtain hcount | hstep := Nat.lt_or_ge (e.counter + 1) e.period
  · rw [envelopeTick_of_lt hgate hcount]
    exact ⟨hperiod, by dsimp only; omega, hholding⟩
  · have hrun : e.holding = false := by
      cases hheld : e.holding with
      | false => rfl
      | true => exact absurd ⟨hholding hheld, hheld⟩ hgate
    obtain ⟨hkept, -⟩ := movePhase_fields e
    rw [envelopeTick_of_le_running hrun hstep]
    exact ⟨by dsimp only; rwa [hkept], Nat.zero_le _, movePhase_holding hholding⟩

/-- A tick keeps the ranges. -/
theorem tick_inRange (c : Config) (b : Block) (h : b.InRange) : (tick c b).InRange := by
  obtain ⟨hvoice, hnoise, henv⟩ := h
  exact ⟨fun k => tick_voiceAt c b k ▸ toneTick_inRange (hvoice k), noiseTick_inRange hnoise,
    envelopeTick_inRange _ henv⟩

/-- A voice in range stays so when its period is composed again. -/
theorem deriveTonePeriod_inRange (k : Fin 3) {b : Block} (h : b.InRange) :
    (deriveTonePeriod k b).InRange := by
  obtain ⟨hvoice, hnoise, henv⟩ := h
  refine ⟨fun j => ?_, hnoise, henv⟩
  rw [deriveTonePeriod_voiceAt]
  split
  · obtain ⟨hlow, hhigh⟩ := tonePeriod_range b k
    obtain ⟨-, -, hcounter⟩ := hvoice k
    exact ⟨hlow, hhigh, hcounter⟩
  · exact hvoice j

/-- The levels and enables have no range of their own. -/
theorem deriveAmplitude_inRange (k : Fin 3) {b : Block} (h : b.InRange) :
    (deriveAmplitude k b).InRange := by
  obtain ⟨hvoice, hnoise, henv⟩ := h
  refine ⟨fun j => ?_, hnoise, henv⟩
  rw [deriveAmplitude_voiceAt]
  split
  · exact hvoice k
  · exact hvoice j

theorem deriveMixer_inRange {b : Block} (h : b.InRange) : (deriveMixer b).InRange := by
  obtain ⟨hvoice, hnoise, henv⟩ := h
  exact ⟨fun k => deriveMixer_voiceAt b k ▸ hvoice k, hnoise, henv⟩

theorem deriveNoisePeriod_inRange {b : Block} (h : b.InRange) : (deriveNoisePeriod b).InRange := by
  obtain ⟨hvoice, ⟨-, hcounter, hlfsr⟩, henv⟩ := h
  exact ⟨hvoice, ⟨noisePeriod_range b, hcounter, hlfsr⟩, henv⟩

theorem deriveEnvPeriod_inRange {b : Block} (h : b.InRange) : (deriveEnvPeriod b).InRange := by
  obtain ⟨hvoice, hnoise, -, hcounter, hholding⟩ := h
  exact ⟨hvoice, hnoise, envPeriod_range b, hcounter, hholding⟩

/-- A shape write clears the counter and lets the envelope run (R162). -/
theorem deriveShape_inRange {b : Block} (h : b.InRange) : (deriveShape b).InRange := by
  obtain ⟨hvoice, hnoise, hperiod, -, -⟩ := h
  exact ⟨hvoice, hnoise, hperiod, Nat.zero_le _, nofun⟩

/-- The decode of every row keeps the ranges. -/
theorem deriveOf_inRange (i : Fin 16) {b : Block} (h : b.InRange) : (deriveOf i b).InRange := by
  unfold deriveOf
  split
  case h_1 | h_2 => exact deriveTonePeriod_inRange 0 h
  case h_3 | h_4 => exact deriveTonePeriod_inRange 1 h
  case h_5 | h_6 => exact deriveTonePeriod_inRange 2 h
  case h_7 => exact deriveNoisePeriod_inRange h
  case h_8 => exact deriveMixer_inRange h
  case h_9 => exact deriveAmplitude_inRange 0 h
  case h_10 => exact deriveAmplitude_inRange 1 h
  case h_11 => exact deriveAmplitude_inRange 2 h
  case h_12 | h_13 => exact deriveEnvPeriod_inRange h
  case h_14 => exact deriveShape_inRange h
  case h_15 => exact h

/-- The block after reset is in range. -/
theorem reset_inRange : Block.reset.InRange := by
  decide

end Sys2Proof.Machine

/-! CLAIMS. The ranges of the derived state (10_state.md section 9). -/

namespace Sys2Proof.Machine

/-- Settles O51. -/
theorem resetInRange : Obligations.ResetInRange := reset_inRange

/-- Settles O52: a store touches no range, and every decode, RESET and every tick keeps them. -/
theorem stepKeepsRanges : Obligations.StepKeepsRanges := fun _ _ hs h =>
  step_keeps (fun i b v hb => deriveOf_inRange i (b := b.storeReg i v) hb) reset_inRange
    tick_inRange h hs

end Sys2Proof.Machine

/-! SUPPORT. What the decode of a row writes, field by field, and which bits of the bank each field
reads (R100 to R110, R145). -/

namespace Sys2Proof.Machine

/-- The decode of a row writes the fields of a voice that the row's index names (R145). -/
theorem deriveOf_voiceAt (i : Fin 16) (b : Block) (k : Fin 3) :
    (deriveOf i b).voiceAt k = { b.voiceAt k with
      period := if i.val = 2 * k.val ∨ i.val = 2 * k.val + 1 then tonePeriod b k
        else (b.voiceAt k).period
      volume := if i.val = 8 + k.val then directLevel b k else (b.voiceAt k).volume
      envelopeEnabled := if i.val = 8 + k.val then envelopeEnable b k
        else (b.voiceAt k).envelopeEnabled
      noiseEnabled := if i.val = 7 then noiseEnable b k else (b.voiceAt k).noiseEnabled
      toneEnabled := if i.val = 7 then toneEnable b k else (b.voiceAt k).toneEnabled } := by
  fin_cases i <;> fin_cases k <;>
    simp [deriveOf, deriveTonePeriod_voiceAt, deriveAmplitude_voiceAt]

/-- The decode of a row writes the period of the noise generator if it is row 6 (R154). -/
theorem deriveOf_noise (i : Fin 16) (b : Block) :
    (deriveOf i b).noise = { b.noise with
      period := if i.val = 6 then noisePeriod b else b.noise.period } := by
  fin_cases i <;> rfl

/-- The decode of a row writes the envelope if it is row 11, 12 or 13 (R159 to R162). -/
theorem deriveOf_env (i : Fin 16) (b : Block) :
    (deriveOf i b).env = if i.val = 13 then (deriveShape b).env else { b.env with
      period := if i.val = 11 ∨ i.val = 12 then envPeriod b else b.env.period } := by
  fin_cases i <;> rfl

/-- Two blocks whose cells `i` agree in their used bits. -/
def SameUsed (b c : Block) (i : Fin 16) : Prop :=
  b.readReg i &&& usedBits i = c.readReg i &&& usedBits i

/-- Equal cells agree in their used bits. -/
theorem sameUsed_of_eq {b c : Block} {i : Fin 16} (h : b.readReg i = c.readReg i) :
    SameUsed b c i := by
  rw [SameUsed, h]

/-- A used bit is the same in both. -/
theorem SameUsed.getLsbD {b c : Block} {i : Fin 16} (h : SameUsed b c i) {n : ℕ}
    (hn : (usedBits i).getLsbD n = true) :
    (b.readReg i).getLsbD n = (c.readReg i).getLsbD n := by
  simpa [hn] using congrArg (·.getLsbD n) h

/-- A field of used bits is the same in both. -/
theorem SameUsed.extractLsb' {b c : Block} {i : Fin 16} (h : SameUsed b c i) (len : ℕ)
    (hlen : ∀ n < len, (usedBits i).getLsbD n = true) :
    (b.readReg i).extractLsb' 0 len = (c.readReg i).extractLsb' 0 len := by
  ext n hn
  simpa using h.getLsbD (hlen n hn)

/-- A cell all of whose bits are used is the same in both. -/
theorem SameUsed.readReg {b c : Block} {i : Fin 16} (h : SameUsed b c i)
    (hall : ∀ n < 8, (usedBits i).getLsbD n = true) : b.readReg i = c.readReg i :=
  BitVec.eq_of_getLsbD_eq fun n hn => h.getLsbD (hall n hn)

section
variable {b c : Block}

/-- R147 reads the fine cell and the low half of the coarse cell. -/
theorem tonePeriod_congr {k : Fin 3} (hfine : SameUsed b c ⟨2 * k.val, by omega⟩)
    (hcoarse : SameUsed b c ⟨2 * k.val + 1, by omega⟩) : tonePeriod b k = tonePeriod c k := by
  have h8 : toneFine b k = toneFine c k := by
    fin_cases k <;> exact hfine.readReg (by decide)
  have h4 : toneCoarse b k = toneCoarse c k := by
    fin_cases k <;> exact hcoarse.extractLsb' 4 (by decide)
  rw [tonePeriod, tonePeriod, h8, h4]

/-- R105 reads bits 3:0 and 4 of the amplitude cell. -/
theorem directLevel_congr {k : Fin 3} (h : SameUsed b c ⟨8 + k.val, by omega⟩) :
    directLevel b k = directLevel c k := by
  fin_cases k <;> exact congrArg BitVec.toFin (h.extractLsb' 4 (by decide))

theorem envelopeEnable_congr {k : Fin 3} (h : SameUsed b c ⟨8 + k.val, by omega⟩) :
    envelopeEnable b k = envelopeEnable c k := by
  fin_cases k <;> exact h.getLsbD (by decide)

/-- R104 reads bits 5:0 of the mixer cell. -/
theorem toneEnable_congr (h : SameUsed b c 7) (k : Fin 3) : toneEnable b k = toneEnable c k :=
  congrArg (!·) (h.getLsbD (by revert k; decide))

theorem noiseEnable_congr (h : SameUsed b c 7) (k : Fin 3) : noiseEnable b k = noiseEnable c k :=
  congrArg (!·) (h.getLsbD (by revert k; decide))

/-- R154 reads bits 4:0 of the noise cell. -/
theorem noisePeriod_congr (h : SameUsed b c 6) : noisePeriod b = noisePeriod c := by
  rw [noisePeriod, noisePeriod, h.extractLsb' 5 (by decide)]

/-- R159 reads both envelope period cells whole. -/
theorem envPeriod_congr (hfine : SameUsed b c 11) (hcoarse : SameUsed b c 12) :
    envPeriod b = envPeriod c := by
  rw [envPeriod, envPeriod, hfine.readReg (by decide), hcoarse.readReg (by decide)]

/-- R108 reads bits 3:0 of the shape cell. -/
theorem shapeContinue_congr (h : SameUsed b c 13) : shapeContinue b = shapeContinue c :=
  h.getLsbD (by decide)

theorem shapeAttack_congr (h : SameUsed b c 13) : shapeAttack b = shapeAttack c :=
  h.getLsbD (by decide)

theorem shapeAlternate_congr (h : SameUsed b c 13) : shapeAlternate b = shapeAlternate c :=
  h.getLsbD (by decide)

theorem shapeHold_congr (h : SameUsed b c 13) : shapeHold b = shapeHold c :=
  h.getLsbD (by decide)

end

end Sys2Proof.Machine

/-! SUPPORT. Each part of the agreement with the bank, after a write and its decode (R57, R58). -/

namespace Sys2Proof.Machine

/-- The block after an accepted write of the byte `v` to cell `i`. -/
abbrev Block.written (b : Block) (i : Fin 16) (v : Byte) : Block := deriveOf i (b.storeReg i v)

/-- A write leaves the cells of other indices alone. -/
theorem written_readReg_other (b : Block) {i j : Fin 16} (v : Byte) (h : j.val ≠ i.val) :
    (b.written i v).readReg j = b.readReg j := by
  rw [deriveOf_readReg, Block.readReg_storeReg_other _ _ (Fin.ne_of_val_ne h)]

section
variable {b : Block} (i : Fin 16) (v : Byte)

/-- The bank a decode reads is the bank it leaves. -/
theorem sameUsed_written_store (j : Fin 16) :
    SameUsed (b.storeReg i v) (b.written i v) j := sameUsed_of_eq (deriveOf_readReg ..).symm

/-- A cell that the write leaves alone. -/
theorem sameUsed_written_other {j : Fin 16} (h : j.val ≠ i.val) : SameUsed b (b.written i v) j :=
  sameUsed_of_eq (written_readReg_other b v h).symm

theorem written_tonePeriod {k : Fin 3} (h : (b.voiceAt k).period = tonePeriod b k) :
    ((b.written i v).voiceAt k).period = tonePeriod (b.written i v) k := by
  rw [deriveOf_voiceAt]
  dsimp only
  split
  · exact tonePeriod_congr (sameUsed_written_store ..) (sameUsed_written_store ..)
  · exact h.trans (tonePeriod_congr (sameUsed_written_other _ _ (by dsimp only; omega))
      (sameUsed_written_other _ _ (by dsimp only; omega)))

theorem written_volume {k : Fin 3} (h : (b.voiceAt k).volume = directLevel b k) :
    ((b.written i v).voiceAt k).volume = directLevel (b.written i v) k := by
  rw [deriveOf_voiceAt]
  dsimp only
  split
  · exact directLevel_congr (sameUsed_written_store ..)
  · exact h.trans (directLevel_congr (sameUsed_written_other _ _ (by dsimp only; omega)))

theorem written_envelopeEnabled {k : Fin 3}
    (h : (b.voiceAt k).envelopeEnabled = envelopeEnable b k) :
    ((b.written i v).voiceAt k).envelopeEnabled = envelopeEnable (b.written i v) k := by
  rw [deriveOf_voiceAt]
  dsimp only
  split
  · exact envelopeEnable_congr (sameUsed_written_store ..)
  · exact h.trans (envelopeEnable_congr (sameUsed_written_other _ _ (by dsimp only; omega)))

theorem written_toneEnabled {k : Fin 3} (h : (b.voiceAt k).toneEnabled = toneEnable b k) :
    ((b.written i v).voiceAt k).toneEnabled = toneEnable (b.written i v) k := by
  rw [deriveOf_voiceAt]
  dsimp only
  split
  · exact toneEnable_congr (sameUsed_written_store ..) k
  · exact h.trans (toneEnable_congr (sameUsed_written_other _ _ (by simp; omega)) k)

/-- The noise enables stay as they are, exception of R58 included, until a write of r7 ends it. -/
theorem written_noiseEnabled
    (h : (∀ k, (b.voiceAt k).noiseEnabled = noiseEnable b k) ∨
      (b.readReg 7 = 0 ∧ ∀ k, (b.voiceAt k).noiseEnabled = false)) :
    (∀ k, ((b.written i v).voiceAt k).noiseEnabled = noiseEnable (b.written i v) k) ∨
      ((b.written i v).readReg 7 = 0 ∧ ∀ k, ((b.written i v).voiceAt k).noiseEnabled = false) := by
  simp only [deriveOf_voiceAt]
  by_cases hi : i.val = 7
  · simp only [if_pos hi]
    exact .inl fun k => noiseEnable_congr (sameUsed_written_store ..) k
  · have hother : (7 : Fin 16).val ≠ i.val := fun e => hi e.symm
    simp only [if_neg hi]
    obtain hall | ⟨hzero, hfalse⟩ := h
    · exact .inl fun k => (hall k).trans (noiseEnable_congr (sameUsed_written_other _ _ hother) k)
    · exact .inr ⟨(written_readReg_other b v hother).trans hzero, hfalse⟩

theorem written_noisePeriod (h : b.noise.period = noisePeriod b) :
    (b.written i v).noise.period = noisePeriod (b.written i v) := by
  rw [deriveOf_noise]
  dsimp only
  split
  · exact noisePeriod_congr (sameUsed_written_store ..)
  · exact h.trans (noisePeriod_congr (sameUsed_written_other _ _ (by simp; omega)))

theorem written_envPeriod (h : b.env.period = envPeriod b) :
    (b.written i v).env.period = envPeriod (b.written i v) := by
  have hkept : i.val ≠ 11 → i.val ≠ 12 → b.env.period = envPeriod (b.written i v) :=
    fun hfine hcoarse => h.trans (envPeriod_congr
      (sameUsed_written_other _ _ (by simp; omega)) (sameUsed_written_other _ _ (by simp; omega)))
  rw [deriveOf_env]
  split
  · exact hkept (by omega) (by omega)
  · dsimp only
    split
    · exact envPeriod_congr (sameUsed_written_store ..) (sameUsed_written_store ..)
    · exact hkept (by omega) (by omega)

/-- The shape flags but `attack`. -/
theorem written_shape (hc : b.env.continueFlag = shapeContinue b)
    (ha : b.env.alternate = shapeAlternate b) (hh : b.env.hold = shapeHold b) :
    (b.written i v).env.continueFlag = shapeContinue (b.written i v) ∧
      (b.written i v).env.alternate = shapeAlternate (b.written i v) ∧
      (b.written i v).env.hold = shapeHold (b.written i v) := by
  rw [deriveOf_env]
  split
  · have hstore := sameUsed_written_store (b := b) i v 13
    exact ⟨shapeContinue_congr hstore, shapeAlternate_congr hstore, shapeHold_congr hstore⟩
  · have hother : SameUsed b (b.written i v) 13 := sameUsed_written_other _ _ (by simp; omega)
    exact ⟨hc.trans (shapeContinue_congr hother), ha.trans (shapeAlternate_congr hother),
      hh.trans (shapeHold_congr hother)⟩

/-- A write keeps the agreement: it decodes its cell, and no other field reads that cell. -/
theorem written_bankAgrees (h : b.BankAgrees) : (b.written i v).BankAgrees := by
  obtain ⟨hvoice, henables, hnoise, henv, hcontinue, halternate, hhold⟩ := h
  refine ⟨fun k => ?_, written_noiseEnabled i v henables, written_noisePeriod i v hnoise,
    written_envPeriod i v henv, written_shape i v hcontinue halternate hhold⟩
  obtain ⟨hperiod, hvolume, hmode, htone⟩ := hvoice k
  exact ⟨written_tonePeriod i v hperiod, written_volume i v hvolume,
    written_envelopeEnabled i v hmode, written_toneEnabled i v htone⟩

end

/-- A tick writes neither the bank nor any field that it decodes to. -/
theorem tick_bankAgrees (c : Config) (b : Block) (h : b.BankAgrees) : (tick c b).BankAgrees := by
  obtain ⟨hvoice, henables, hnoise, henv, hcontinue, halternate, hhold⟩ := h
  obtain ⟨hkeptPeriod, hkeptContinue, hkeptAlternate, hkeptHold⟩ :=
    envelopeTick_fields c.envOutputRule b.env
  refine ⟨fun k => ?_, ?_, (noiseTick_period _).trans hnoise, hkeptPeriod.trans henv,
    hkeptContinue.trans hcontinue, hkeptAlternate.trans halternate, hkeptHold.trans hhold⟩
  · rw [tick_voiceAt, toneTick_period, toneTick_volume, toneTick_envelopeEnabled,
      toneTick_toneEnabled]
    exact hvoice k
  · simp only [tick_voiceAt, toneTick_noiseEnabled]
    exact henables

/-- After reset the bank is decoded, but for the noise enables (R58). -/
theorem reset_bankAgrees : Block.reset.BankAgrees := by
  decide

end Sys2Proof.Machine

/-! CLAIMS. The derived state and the bank (10_state.md section 8). -/

namespace Sys2Proof.Machine

/-- Settles O53. -/
theorem resetAgreesWithBank : Obligations.ResetAgreesWithBank := reset_bankAgrees

/-- Settles O54: writes, RESET and ticks keep the agreement. -/
theorem stepKeepsBankAgreement : Obligations.StepKeepsBankAgreement := fun _ _ hs h =>
  step_keeps (fun i _ v => written_bankAgrees i v) reset_bankAgrees tick_bankAgrees h hs

end Sys2Proof.Machine

/-! SUPPORT. Runs from two states: what an instruction makes of a difference in unused bits, or in
the hold flag (R111, R209). -/

namespace Sys2Proof.Machine

/-- The blocks differ in unused bits of the bank at most. -/
def Block.Like (b c : Block) : Prop :=
  (∀ i, SameUsed b c i) ∧ b.voice = c.voice ∧ b.noise = c.noise ∧ b.env = c.env

/-- States differ in unused bits if their blocks do and all else of them is equal. -/
theorem sameButUnusedBits_iff {s t : State} : SameButUnusedBits s t ↔
    s.block.Like t.block ∧ s.sampleRate = t.sampleRate ∧ s.config = t.config ∧
      s.pending = t.pending := by
  simp only [SameButUnusedBits, Block.Like, SameUsed, and_assoc]

theorem voiceAt_congr {b c : Block} (h : b.voice = c.voice) (k : Fin 3) :
    b.voiceAt k = c.voiceAt k := by
  rw [Block.voiceAt, Block.voiceAt, h]

/-- A write of one byte to both leaves them alike: the decode reads used bits only. -/
theorem like_written {b c : Block} (h : b.Like c) (i : Fin 16) (v : Byte) :
    (b.written i v).Like (c.written i v) := by
  obtain ⟨hbank, hvoice, hnoise, henv⟩ := h
  have hstore : ∀ j, SameUsed (b.storeReg i v) (c.storeReg i v) j := by
    intro j
    by_cases hj : j = i
    · subst hj
      exact sameUsed_of_eq (by simp)
    · rw [SameUsed, Block.readReg_storeReg_other _ _ hj, Block.readReg_storeReg_other _ _ hj]
      exact hbank j
  refine ⟨fun j => ?_, voices_ext fun k => ?_, ?_, ?_⟩
  · rw [SameUsed, deriveOf_readReg, deriveOf_readReg]
    exact hstore j
  · rw [deriveOf_voiceAt, deriveOf_voiceAt, tonePeriod_congr (hstore _) (hstore _),
      directLevel_congr (hstore _), envelopeEnable_congr (hstore _),
      toneEnable_congr (hstore _), noiseEnable_congr (hstore _), Block.storeReg_voiceAt,
      Block.storeReg_voiceAt, voiceAt_congr hvoice]
  · rw [deriveOf_noise, deriveOf_noise, noisePeriod_congr (hstore _), Block.storeReg_noise,
      Block.storeReg_noise, hnoise]
  · rw [deriveOf_env, deriveOf_env, deriveShape_env, deriveShape_env,
      envPeriod_congr (hstore _) (hstore _), shapeContinue_congr (hstore _),
      shapeAttack_congr (hstore _), shapeAlternate_congr (hstore _), shapeHold_congr (hstore _),
      Block.storeReg_env, Block.storeReg_env, henv]

/-- A tick of both leaves them alike: it does not read the bank. -/
theorem like_tick {b c : Block} (h : b.Like c) (config : Config) :
    (tick config b).Like (tick config c) := by
  obtain ⟨hbank, hvoice, hnoise, henv⟩ := h
  refine ⟨hbank, voices_ext fun k => ?_, ?_, ?_⟩
  · rw [tick_voiceAt, tick_voiceAt, voiceAt_congr hvoice]
  · rw [tick_noise, tick_noise, hnoise]
  · rw [tick_env, tick_env, henv]

/-- Alike blocks mix to the same sample. -/
theorem mix_of_like {b c : Block} (h : b.Like c) (config : Config) :
    mix config b = mix config c := by
  obtain ⟨-, hvoice, hnoise, henv⟩ := h
  exact mix_congr _ fun k => contribution_congr _ k (voiceAt_congr hvoice k) hnoise henv

/-- An index names a cell of the bank or none. -/
theorem index_cases (index : Int) :
    (∃ cell : Fin 16, index = cell.val) ∨ ¬(0 ≤ index ∧ index ≤ 15) := by
  by_cases h : 0 ≤ index ∧ index ≤ 15
  · exact .inl ⟨⟨index.toNat, by omega⟩, by dsimp only; omega⟩
  · exact .inr h

/-- An instruction completes on alike blocks with alike blocks, and all but RD with one result. -/
theorem exec_like (i : Instr) {s s' : State} (h : s.block.Like s'.block)
    (hconfig : s.config = s'.config) :
    ∃ b b' r r', exec i s = .next (s.finish b r) ∧ exec i s' = .next (s'.finish b' r') ∧
      b.Like b' ∧ ((∀ index, i ≠ .rd index) → r' = r) := by
  obtain ⟨index, value, rfl⟩ | rfl | rfl | ⟨index, rfl⟩ := instr_shape i
  · rw [exec_ofWrite, exec_ofWrite, writeCell_eq, writeCell_eq, hconfig]
    split
    · exact ⟨_, _, _, _, rfl, rfl, like_written h index _, fun _ => rfl⟩
    · exact ⟨_, _, _, _, rfl, rfl, h, fun _ => rfl⟩
  · exact ⟨_, _, _, _, exec_reset s, exec_reset s', ⟨fun _ => rfl, rfl, rfl, rfl⟩, fun _ => rfl⟩
  · refine ⟨_, _, _, _, exec_sample s, exec_sample s', ?_, fun _ => ?_⟩
    · rw [hconfig]
      exact like_tick h _
    · rw [hconfig, mix_of_like (like_tick h _)]
  · obtain ⟨cell, rfl⟩ | houtside := index_cases index
    · exact ⟨_, _, _, _, exec_rd_inside cell s, exec_rd_inside cell s', h,
        fun hne => absurd rfl (hne _)⟩
    · exact ⟨_, _, _, _, exec_rd_outside index s houtside, exec_rd_outside index s' houtside, h,
        fun _ => rfl⟩

/-- Blocks with the same cells, voices and generators are the same. -/
theorem block_ext {b c : Block} (hcell : ∀ i, b.readReg i = c.readReg i)
    (hvoice : ∀ k, b.voiceAt k = c.voiceAt k) (hnoise : b.noise = c.noise) (henv : b.env = c.env) :
    b = c := by
  have hreg := bank_ext hcell
  have hvoices := voices_ext hvoice
  cases b
  cases c
  simp_all

/-- The block with the hold flag set to `h`. -/
def Block.setHold (b : Block) (h : Bool) : Block := { b with env := { b.env with hold := h } }

/-- No write reads the hold flag, and only the shape write sets it. -/
theorem written_setHold (b : Block) (h : Bool) (i : Fin 16) (v : Byte) :
    ((b.setHold h).written i v).setHold false = (b.written i v).setHold false := by
  fin_cases i <;> rfl

/-- The two policies do not read the hold flag (R206, R207, R209). -/
theorem movePhase_setHold (e : Envelope) (h : Bool) :
    movePhase { e with hold := h } = { movePhase e with hold := h } := by
  simp only [movePhase, movedPhase, topPolicy, bottomPolicy]
  split_ifs <;> rfl

/-- An envelope tick does not read the hold flag. -/
theorem envelopeTick_setHold (rule : EnvOutputRule) (e : Envelope) (h : Bool) :
    envelopeTick rule { e with hold := h } = { envelopeTick rule e with hold := h } := by
  by_cases hgate : e.continueFlag = false ∧ e.holding = true
  · rw [envelopeTick_of_gated hgate, envelopeTick_of_gated (e := { e with hold := h }) hgate]
  obtain hcount | hstep := Nat.lt_or_ge (e.counter + 1) e.period
  · rw [envelopeTick_of_lt hgate hcount,
      envelopeTick_of_lt (e := { e with hold := h }) hgate hcount]
  obtain hholding | hrun := Bool.eq_false_or_eq_true e.holding
  · have hcontinue : e.continueFlag = true := by simpa [hholding] using hgate
    rw [envelopeTick_of_le_holding hholding hcontinue hstep,
      envelopeTick_of_le_holding (e := { e with hold := h }) hholding hcontinue hstep]
  · rw [envelopeTick_of_le_running hrun hstep,
      envelopeTick_of_le_running (e := { e with hold := h }) hrun hstep, movePhase_setHold]

/-- A tick does not read the hold flag. -/
theorem tick_setHold (c : Config) (b : Block) (h : Bool) :
    tick c (b.setHold h) = (tick c b).setHold h := by
  refine block_ext (fun _ => rfl) (fun k => ?_) rfl ?_
  · exact (tick_voiceAt c (b.setHold h) k).trans (tick_voiceAt c b k).symm
  · exact envelopeTick_setHold c.envOutputRule b.env h

/-- The mix does not read the hold flag. -/
theorem mix_setHold (c : Config) (b : Block) (h : Bool) : mix c (b.setHold h) = mix c b := rfl

/-- With the hold flag set an instruction completes with the same result and the same block, but for
that flag. -/
theorem exec_withHold (i : Instr) (s : State) (h : Bool) :
    ∃ b b' r, exec i s = .next (s.finish b r) ∧
      exec i (s.withHold h) = .next ((s.withHold h).finish b' r) ∧
      b'.setHold false = b.setHold false := by
  obtain ⟨index, value, rfl⟩ | rfl | rfl | ⟨index, rfl⟩ := instr_shape i
  · rw [exec_ofWrite, exec_ofWrite, writeCell_eq, writeCell_eq]
    rw [show (s.withHold h).config = s.config from rfl]
    split
    · exact ⟨_, _, _, rfl, rfl, written_setHold s.block h index _⟩
    · exact ⟨s.block, s.block.setHold h, _, rfl, rfl, rfl⟩
  · exact ⟨_, _, _, exec_reset s, exec_reset _, rfl⟩
  · have hticked : tick s.config (s.withHold h).block = (tick s.config s.block).setHold h :=
      tick_setHold s.config s.block h
    have hsample := exec_sample (s.withHold h)
    rw [show (s.withHold h).config = s.config from rfl, hticked, mix_setHold] at hsample
    exact ⟨_, _, _, exec_sample s, hsample, rfl⟩
  · obtain ⟨cell, rfl⟩ | houtside := index_cases index
    · exact ⟨_, _, _, exec_rd_inside cell s, exec_rd_inside cell _, rfl⟩
    · exact ⟨_, s.block.setHold h, _, exec_rd_outside index s houtside,
        exec_rd_outside index _ houtside, rfl⟩

end Sys2Proof.Machine

/-! CLAIMS. What no operation reads (30_encoding.md section 2, 43_envelope.md section 1). -/

namespace Sys2Proof.Machine

/-- Settles O48: alike blocks stay alike, and nothing but RD returns an unused bit. -/
theorem unusedBitsHaveNoEffect : Obligations.UnusedBitsHaveNoEffect := by
  intro i s s' t hsame ht
  obtain ⟨hlike, hrate, hconfig, hpending⟩ := sameButUnusedBits_iff.mp hsame
  obtain ⟨b, b', r, r', hs, hs', hafter, hreply⟩ := exec_like i hlike hconfig
  rw [hs] at ht
  cases ht
  exact ⟨_, hs', sameButUnusedBits_iff.mpr ⟨hafter, hrate, hconfig, hpending⟩,
    fun hne => congrArg some (hreply hne)⟩

/-- Settles O49, by the two completions that differ in the hold flag only. -/
theorem holdFlagHasNoEffect : Obligations.HoldFlagHasNoEffect := by
  intro i s t h ht
  obtain ⟨b, b', r, hs, hheld, hblock⟩ := exec_withHold i s h
  rw [hs] at ht
  cases ht
  refine ⟨_, hheld, rfl, ?_⟩
  change { s with block := b'.setHold false, reply := some r } =
    { s with block := b.setHold false, reply := some r }
  rw [hblock]

end Sys2Proof.Machine

/-! SUPPORT. When a request is refused, and what a step does to the configuration (R11, R54,
R284). -/

namespace Sys2Proof.Machine

/-- A write of a cell, a read, RESET and SAMPLE are never refused. -/
theorem exec_ne_refused (i : Instr) (s : State) (r : Refusal) : exec i s ≠ .refused r := by
  obtain ⟨t, ht⟩ := exec_next i s
  simp [ht]

theorem callWrite_ne_refused (index value : Int) (s : State) (r : Refusal) :
    callWrite index value s ≠ .refused r := by
  obtain ⟨_, h⟩ | h := callWrite_cases index value s <;> simp [h]

/-- A command word is refused exactly if it spells no instruction (R113, R114). -/
theorem runCommand_refused_iff (w : CommandWord) (s : State) (r : Refusal) :
    runCommand w s = .refused r ↔ (¬∃ i, decode w = .ok i) ∧ r = .reservedCommand w := by
  by_cases h : ∃ i, decode w = .ok i
  · obtain ⟨i, hi⟩ := h
    rw [runCommand_of_decode hi]
    exact iff_of_false (exec_ne_refused i s r) fun hr => hr.1 ⟨i, hi⟩
  · rw [runCommand_of_reserved h, and_iff_right h]
    exact ⟨fun hr => by cases hr; rfl, fun hr => hr ▸ rfl⟩

/-- A batch is refused exactly on a short buffer (R251). -/
theorem processSamples_refused_iff (len count : ℕ) (s : State) (r : Refusal) :
    processSamples len count s = .refused r ↔ len < count ∧ r = .shortBuffer len count := by
  unfold processSamples
  split <;> simp_all [eq_comm]

/-- A construction is refused exactly for rate 0 (R252). -/
theorem construct_refused_iff (rate : ℕ) (s : State) (r : Refusal) :
    construct rate s = .refused r ↔ rate = 0 ∧ r = .zeroSampleRate := by
  unfold construct
  split <;> simp_all [eq_comm]

/-- The requests outside the contract, with the refusal that names each (R284). -/
def Refuses (request : Request) (r : Refusal) : Prop :=
  (∃ w, request = .issue (.command w) ∧ (¬∃ i, decode w = .ok i) ∧ r = .reservedCommand w) ∨
  (∃ len count, request = .issue (.processSamples len count) ∧ len < count ∧
    r = .shortBuffer len count) ∨
  (request = .issue (.construct 0) ∧ r = .zeroSampleRate) ∨
  (∃ a b, request = .overlapping a b ∧ r = .overlappingOperations)

/-- A request is refused exactly if it is outside the contract. -/
theorem serve_refused_iff (request : Request) (s : State) (r : Refusal) :
    serve request s = .refused r ↔ Refuses request r := by
  match request with
  | .overlapping a b => simp [serve, Refuses, eq_comm]
  | .issue (.command w) => simp [serve, perform, runCommand_refused_iff, Refuses]
  | .issue (.writeRegister index value) =>
    simp [serve, perform, callWrite_ne_refused, Refuses]
  | .issue (.readRegister index) => simp [serve, perform, exec_ne_refused, Refuses]
  | .issue .reset => simp [serve, perform, exec_ne_refused, Refuses]
  | .issue .generateSample => simp [serve, perform, exec_ne_refused, Refuses]
  | .issue (.processSamples len count) =>
    simp [serve, perform, processSamples_refused_iff, Refuses]
  | .issue (.construct rate) => simp [serve, perform, construct_refused_iff, Refuses]

/-- No instruction changes a parameter or the rate. -/
theorem exec_config {i : Instr} {s t : State} (h : exec i s = .next t) :
    t.config = s.config ∧ t.sampleRate = s.sampleRate := by
  obtain ⟨_, _, -, -, rfl⟩ | ⟨_, _, -, -, rfl⟩ | ⟨-, rfl⟩ | ⟨-, rfl⟩ | ⟨_, -, rfl⟩ |
    ⟨_, -, -, rfl⟩ := exec_cases h <;> exact ⟨rfl, rfl⟩

/-- A request keeps the parameters, and the rate unless it is a construction. -/
theorem serve_config {r : Request} {s t : State} (h : serve r s = .next t) :
    t.config = s.config ∧
      (t.sampleRate = s.sampleRate ∨
        ∃ rate, r = .issue (.construct rate) ∧ t.sampleRate = rate) := by
  obtain ⟨_, hi⟩ | ⟨_, rfl⟩ | ⟨_, _, -, -, rfl⟩ | ⟨rate, hr, -, rfl⟩ := serve_cases h
  · obtain ⟨hconfig, hrate⟩ := exec_config hi
    exact ⟨hconfig, .inl hrate⟩
  · exact ⟨rfl, .inl rfl⟩
  · exact ⟨rfl, .inl rfl⟩
  · exact ⟨rfl, .inr ⟨rate, hr, rfl⟩⟩

end Sys2Proof.Machine

/-! CLAIMS. The step, the typed calls and the configuration (00_scope.md section 4,
60_exceptions.md). -/

namespace Sys2Proof.Machine

/-- Settles O6. -/
theorem stepRunsDecodedInstruction : Obligations.StepRunsDecodedInstruction := by
  intro s w i rest hp hd
  rw [step_request hp]
  exact runCommand_of_decode hd _

/-- Settles O7: each typed call is the service of its request. -/
theorem stepRunsTypedCalls : Obligations.StepRunsTypedCalls := fun _ _ =>
  ⟨fun index value hp => (step_request hp).trans (callWrite_inside index value _),
    fun _ hp => step_request hp, step_request, step_request⟩

/-- Settles O8. -/
theorem idleBlockKeepsState : Obligations.IdleBlockKeepsState := fun _ => step_idle

/-- Settles O9: an idle step is not refused, and a request is exactly if it is outside the
contract. -/
theorem refusalsOfR284 : Obligations.RefusalsOfR284 := by
  intro s r
  constructor
  · intro h
    cases hp : s.pending with
    | nil => simp [step_idle hp] at h
    | cons request rest =>
      rw [step_request hp] at h
      exact ⟨request, rest, rfl, (serve_refused_iff ..).mp h⟩
  · rintro ⟨request, rest, hp, h⟩
    rw [step_request hp]
    exact (serve_refused_iff ..).mpr h

/-- Settles O11: outside the bank the value is not looked at. -/
theorem indexCheckedFirst : Obligations.IndexCheckedFirst := by
  intro s rest index value hp hindex _
  rw [step_request hp]
  exact callWrite_outside hindex value _

/-- Settles O26: the block after RESET is one constant. -/
theorem resetIdempotent : Obligations.ResetIdempotent := by
  intro s t h
  rw [exec_reset] at h
  cases h
  rfl

/-- Settles O50, by what a request does to the configuration. -/
theorem configurationIsFixed : Obligations.ConfigurationIsFixed := by
  intro s t h
  cases hp : s.pending with
  | nil =>
    rw [step_idle hp] at h
    cases h
    exact ⟨rfl, .inl rfl⟩
  | cons r rest =>
    rw [step_request hp] at h
    obtain ⟨hconfig, hrate | ⟨rate, rfl, hrate⟩⟩ := serve_config h
    · exact ⟨hconfig, .inl hrate⟩
    · exact ⟨hconfig, .inr ⟨rate, rest, rfl, hrate⟩⟩

end Sys2Proof.Machine

/-! SUPPORT. Writes done twice, and the pairs of writes of the pseudo-operations (R88, R118). -/

namespace Sys2Proof.Machine

/-- Writing the byte a cell holds stores nothing new. -/
theorem storeReg_readReg (b : Block) (i : Fin 16) : b.storeReg i (b.readReg i) = b :=
  block_ext (fun j => by rw [Block.readReg_storeReg]; split <;> simp_all) (fun _ => rfl) rfl rfl

/-- Writing the shape it holds only restarts the envelope. -/
theorem written_shape_held (b : Block) : b.written 13 (b.readReg 13) = deriveShape b :=
  congrArg deriveShape (storeReg_readReg b 13)

/-- A decode done twice is the decode done once, but for the restart of the shape write (R88). -/
theorem deriveOf_deriveOf {i : Fin 16} (hi : i ≠ 13) (b : Block) :
    deriveOf i (deriveOf i b) = deriveOf i b := by
  have hne : i.val ≠ 13 := Fin.val_ne_of_ne hi
  have hbank : ∀ j, SameUsed (deriveOf i b) b j := fun j => sameUsed_of_eq (deriveOf_readReg i b j)
  refine block_ext (fun j => deriveOf_readReg i _ j) (fun k => ?_) ?_ ?_
  · rw [deriveOf_voiceAt i (deriveOf i b), tonePeriod_congr (hbank _) (hbank _),
      directLevel_congr (hbank _), envelopeEnable_congr (hbank _), toneEnable_congr (hbank _),
      noiseEnable_congr (hbank _), deriveOf_voiceAt]
    split_ifs <;> rfl
  · rw [deriveOf_noise i (deriveOf i b), noisePeriod_congr (hbank _), deriveOf_noise]
    split_ifs <;> rfl
  · rw [deriveOf_env i (deriveOf i b), if_neg hne, envPeriod_congr (hbank _) (hbank _),
      deriveOf_env, if_neg hne]
    split_ifs <;> rfl

/-- A write done twice is the write done once, but for the shape write. -/
theorem written_written {i : Fin 16} (hi : i ≠ 13) (b : Block) (v : Byte) :
    (b.written i v).written i v = b.written i v := by
  have hcell : (b.written i v).readReg i = v := by simp
  calc (b.written i v).written i v
      = deriveOf i ((b.written i v).storeReg i ((b.written i v).readReg i)) := by rw [hcell]
    _ = b.written i v := by rw [storeReg_readReg, deriveOf_deriveOf hi]

/-- A write of a byte completes under either policy. -/
theorem exec_ofWrite_byte (i : Fin 16) (v : Byte) (s : State) :
    exec (Instr.ofWrite i v.toNat) s = .next (s.finish (s.block.written i v) .done) := by
  have haccepts : Accepts s v.toNat := .inr ⟨by omega, by have := v.isLt; omega⟩
  rw [exec_ofWrite, writeCell_of_accepts haccepts, maskByte_toNat_cast]

/-- A step on the word of a write stores and decodes its byte. -/
theorem step_write_word {s : State} {index : BitVec 4} {data : Byte} {rest : List Request}
    (hp : s.pending = .issue (.command (commandWord 0 index data)) :: rest) :
    step s =
      .next ({ s with pending := rest }.finish (s.block.written index.toFin data) .done) := by
  rw [step_request hp]
  exact (runCommand_of_decode (decode_commandWord_write index data) _).trans
    (exec_ofWrite_byte index.toFin data _)

/-- Two steps on the words of two writes. -/
theorem step_two_write_words (s : State) (i j : BitVec 4) (x y : Byte) :
    ∃ u t, step { s with pending := [.issue (.command (commandWord 0 i x)),
        .issue (.command (commandWord 0 j y))] } = .next u ∧ step u = .next t ∧
      t.pending = [] ∧ t.block = (s.block.written i.toFin x).written j.toFin y :=
  ⟨_, _, step_write_word rfl, step_write_word rfl, rfl, rfl⟩

/-- The fine and the coarse byte written one after the other compose the tone period of R147. -/
theorem written_written_tonePeriod (b : Block) (k : Fin 3) (p : BitVec 12) :
    (((b.written (fineIndex k).toFin (p.extractLsb' 0 8)).written (coarseIndex k).toFin
      ((p.extractLsb' 8 4).setWidth 8)).voiceAt k).period = max 1 p.toNat := by
  have hp := p.isLt
  have hfine : (fineIndex k).toFin = ⟨2 * k.val, by omega⟩ := by fin_cases k <;> rfl
  have hcoarse : (coarseIndex k).toFin = ⟨2 * k.val + 1, by omega⟩ := by fin_cases k <;> rfl
  rw [hfine, hcoarse, deriveOf_voiceAt]
  dsimp only
  rw [if_pos (.inr rfl), tonePeriod_eq_tonePeriodOf, tonePeriodOf, Block.readReg_storeReg_same,
    Block.readReg_storeReg_other _ _ (by simp), deriveOf_readReg, Block.readReg_storeReg_same]
  simp only [BitVec.toNat_setWidth, BitVec.extractLsb'_toNat, Nat.shiftRight_eq_div_pow]
  congr 1
  omega

/-- The two bytes written one after the other compose the envelope period of R159. -/
theorem written_written_envPeriod (b : Block) (p : BitVec 16) :
    ((b.written 11 (p.extractLsb' 0 8)).written 12 (p.extractLsb' 8 8)).env.period =
      max 1 (p.toNat * 2) := by
  have hp := p.isLt
  change envPeriod ((b.written 11 (p.extractLsb' 0 8)).storeReg 12 (p.extractLsb' 8 8)) = _
  rw [envPeriod_eq, Block.readReg_storeReg_same, Block.readReg_storeReg_other _ _ (by decide),
    deriveOf_readReg, Block.readReg_storeReg_same]
  simp only [BitVec.extractLsb'_toNat, Nat.shiftRight_eq_div_pow]
  congr 1
  omega

end Sys2Proof.Machine

/-! CLAIMS. Writes, pseudo-operations, reset and construction (40_register_interface.md,
45_host_operations.md). -/

namespace Sys2Proof.Machine

/-- Settles O13: under the lenient policy the write stores and decodes. -/
theorem lenientWriteMasks : Obligations.LenientWriteMasks := by
  intro s rest index value hp hlenient
  have haccepts : Accepts { s with pending := rest } value := .inl hlenient
  have hstep : step s = .next ({ s with pending := rest }.finish
      (s.block.written index (maskByte value)) .done) := by
    rw [step_request hp]
    refine (callWrite_inside index value _).trans ?_
    rw [exec_ofWrite, writeCell_of_accepts haccepts]
  obtain ⟨hcell, hother, hdone, -⟩ := cellWritten_finish index value { s with pending := rest }
  exact ⟨_, hstep, hdone, hcell, hother⟩

/-- Settles O19, by the scheme and the envelope period on numbers. -/
theorem envelopePeriodWrites : Obligations.EnvelopePeriodWrites := by
  have heffect : ∀ b : Block, (deriveEnvPeriod b).env = { b.env with
      period := max 1 (((b.readReg 12).toNat * 256 + (b.readReg 11).toNat) * 2) } := fun b => by
    rw [deriveEnvPeriod_env, envPeriod_eq]
  exact ⟨writeRule_ofWrite 11 fun b v => ⟨heffect (b.storeReg 11 v), rfl, rfl⟩,
    writeRule_ofWrite 12 fun b v => ⟨heffect (b.storeReg 12 v), rfl, rfl⟩⟩

/-- Settles O22: store and decode done twice, the decode of the shape register, and the two cases of
a read. -/
theorem writesIdempotentButShape : Obligations.WritesIdempotentButShape := by
  refine ⟨fun s t index value hindex h => ?write, fun s => ?shape, fun s t index h => ?read⟩
  case write =>
    rw [exec_ofWrite, writeCell_eq] at h
    rw [exec_ofWrite, writeCell_eq]
    split at h <;> cases h
    · next haccepted =>
      rw [State.finish_config, if_pos haccepted, State.finish_block]
      change Host.Outcome.next (s.finish ((s.block.written index (maskByte value)).written index
        (maskByte value)) .done) = _
      rw [written_written hindex]
    · next hrefused =>
      rw [State.raise_config, if_neg hrefused]
      rfl
  case shape =>
    have hexec := exec_ofWrite_byte 13 (s.block.readReg 13) s
    rw [written_shape_held] at hexec
    refine ⟨_, hexec, rfl, rfl, rfl, rfl, ?_⟩
    simp only [State.finish_block, deriveShape_env, shapeAttack_eq, decide_eq_true_eq]
  case read =>
    obtain ⟨cell, rfl⟩ | houtside := index_cases index
    · rw [exec_rd_inside] at h
      cases h
      exact ⟨rfl, rfl, rfl, rfl⟩
    · rw [exec_rd_outside index s houtside] at h
      cases h
      exact ⟨rfl, rfl, rfl, rfl⟩

/-- Settles O23: the two words of a pseudo-operation write the two bytes of its period. -/
theorem pseudoOperationsSetPeriods : Obligations.PseudoOperationsSetPeriods := by
  refine fun s => ⟨fun k p => ?_, fun p => ?_⟩
  · obtain ⟨u, t, hu, ht, hpending, hblock⟩ := step_two_write_words s (fineIndex k) (coarseIndex k)
      (p.extractLsb' 0 8) ((p.extractLsb' 8 4).setWidth 8)
    exact ⟨u, t, hu, ht, hpending, hblock ▸ written_written_tonePeriod s.block k p⟩
  · obtain ⟨u, t, hu, ht, hpending, hblock⟩ := step_two_write_words s 11 12
      (p.extractLsb' 0 8) (p.extractLsb' 8 8)
    exact ⟨u, t, hu, ht, hpending, hblock ▸ written_written_envPeriod s.block p⟩

/-- Settles O27: the state after RESET, and the decode of the mixer register from there. -/
theorem resetDisagreesWithBank : Obligations.ResetDisagreesWithBank := by
  intro s t h
  rw [exec_reset] at h
  cases h
  refine ⟨rfl, rfl, rfl, fun k => ?_, _, exec_ofWrite_byte 7 0 _, fun k => ?_⟩
  · rw [State.finish_block, Block.reset_voiceAt]
    exact ⟨rfl, rfl⟩
  · rw [State.finish_block, State.finish_block, deriveOf_voiceAt]
    revert k
    decide

/-- Settles O28, by the two cases of `new`. -/
theorem newRecordsRateAndResets : Obligations.NewRecordsRateAndResets := by
  intro s rest rate hp
  rw [step_request hp]
  refine ⟨fun hpos => ?_, fun hzero => if_pos hzero⟩
  exact ⟨_, if_neg (Nat.ne_of_gt hpos), rfl, rfl, rfl, rfl, rfl⟩

end Sys2Proof.Machine

/-! SUPPORT. Batches sample by sample, a tone from any counter, what a silent voice hides from the
mix, and the sum of the binary64 profile. -/

namespace Sys2Proof.Machine

/-- The sample at position `j` of a batch is the mix of the block after `j + 1` ticks (R251). -/
theorem generateMany_getElem? {c : Config} {n j : ℕ} {b : Block} {x : Sample}
    (h : (generateMany c n b).2[j]? = some x) : x = mix c ((tick c)^[j + 1] b) := by
  induction n generalizing b j with
  | zero => simp [generateMany] at h
  | succ n ih =>
    cases j with
    | zero =>
      have hfirst : mix c (tick c b) = x := by simpa [generateMany, generate] using h
      exact hfirst.symm
    | succ j => exact ih (b := tick c b) (by simpa [generateMany, generate] using h)

/-- A short buffer is refused, and a long enough one is filled (R251). -/
theorem processSamples_of_le {len count : ℕ} (h : count ≤ len) (s : State) :
    processSamples len count s = .next (s.finish (generateMany s.config count s.block).1
      (.samples (generateMany s.config count s.block).2)) := if_neg h.not_gt

/-- A voice with both sources disabled has a closed gate, whatever its level (R235). -/
theorem contribution_of_disabled {b : Block} {k : Fin 3}
    (htone : (b.voiceAt k).toneEnabled = false) (hnoise : (b.voiceAt k).noiseEnabled = false)
    (c : Config) : contribution c b k = none := by
  have hgate : gate (b.voiceAt k) b.noise = false := by simp [gate, htone, hnoise]
  simp [contribution, hgate]

/-- The level and mode of a voice with both sources disabled change no sample. -/
theorem mix_updateVoice_of_disabled {c : Config} {b : Block} {k : Fin 3}
    (htone : (b.voiceAt k).toneEnabled = false) (hnoise : (b.voiceAt k).noiseEnabled = false)
    (volume : Fin 16) (mode : Bool) :
    mix c (tick c (b.updateVoice k fun v =>
      { v with volume := volume, envelopeEnabled := mode })) = mix c (tick c b) := by
  refine mix_congr c fun j => ?_
  by_cases hj : j = k
  · subst hj
    rw [contribution_of_disabled, contribution_of_disabled] <;>
      simp [htone, hnoise]
  · refine contribution_congr c j ?_ rfl rfl
    rw [tick_voiceAt, tick_voiceAt, Block.voiceAt_updateVoice_other _ _ hj]

/-- A write of the fine or coarse period keeps counter and output, accepted or not. -/
theorem writeCell_counter_output (i : Fin 16) (value : Int) (s : State) (k : Fin 3) :
    ((writeCell i value (deriveOf i) s).block.voiceAt k).counter = (s.block.voiceAt k).counter ∧
      ((writeCell i value (deriveOf i) s).block.voiceAt k).output = (s.block.voiceAt k).output := by
  obtain h | h := writeCell_block i value (deriveOf i) s
  · rw [h, deriveOf_voiceAt, Block.storeReg_voiceAt]
    exact ⟨rfl, rfl⟩
  · rw [h]
    exact ⟨rfl, rfl⟩

/-- Before the period is full the output is as it was (R180). -/
theorem iterate_toneTick_before {v : Voice} {n : ℕ} (h : n < v.period - v.counter) :
    (toneTick^[n] v).output = v.output := by
  obtain ⟨-, houtput⟩ := iterate_toneTick (v := v) (by omega) n
  rw [Nat.div_eq_of_lt (by omega)] at houtput
  exact Fin.ext (houtput.trans (Nat.mod_eq_of_lt v.output.isLt))

/-- When the period is full the output has toggled once (R180). -/
theorem iterate_toneTick_full {v : Voice} (h : v.counter < v.period) :
    (toneTick^[v.period - v.counter] v).output = 1 - v.output := by
  obtain ⟨-, houtput⟩ := iterate_toneTick h (v.period - v.counter)
  rw [Nat.add_sub_cancel' h.le, Nat.div_self (by omega), ← toggle_val] at houtput
  exact Fin.ext houtput

/-- The sum after one voice is that of R236 and R237 in the binary64 profile. -/
theorem addVoice64_eq (c : Config) (b : Block) (sum : Binary64) (k : Fin 3) :
    addVoice64 c b sum k = binarySum c b sum k := by
  simp only [addVoice64, contribution, binarySum, gate_iff]
  by_cases hopen : GateOpen (b.voiceAt k) b.noise
  · rw [if_pos hopen, if_pos hopen, ← levelIndex_val, ← volume64_eq]
  · rw [if_neg hopen, if_neg hopen]

end Sys2Proof.Machine

/-! CLAIMS. Samples: frame, period changes, batches and silent voices (41_tone.md, 44_mixer.md,
45_host_operations.md). -/

namespace Sys2Proof.Machine

/-- Settles O33, by what each generator's tick keeps. -/
theorem sampleFrame : Obligations.SampleFrame := by
  intro s
  obtain ⟨hperiod, hcontinue, halternate, hhold⟩ :=
    envelopeTick_fields s.config.envOutputRule s.block.env
  refine ⟨_, exec_sample s, fun i => rfl, fun k => ?_, noiseTick_period _, hperiod, hcontinue,
    halternate, hhold, rfl, rfl, rfl⟩
  rw [State.finish_block, tick_voiceAt]
  exact ⟨toneTick_period _, toneTick_volume _, toneTick_envelopeEnabled _,
    toneTick_noiseEnabled _, toneTick_toneEnabled _⟩

/-- Settles O35: the write keeps counter and output, and the samples then tick the voice alone. -/
theorem periodChangeTakesEffectNextTick : Obligations.PeriodChangeTakesEffectNextTick := by
  intro s t k index value _ ht
  rw [exec_ofWrite] at ht
  obtain rfl : writeCell index value (deriveOf index) s = t := by injection ht
  obtain ⟨hcounter, houtput⟩ := writeCell_counter_output index value s k
  refine ⟨hcounter, houtput, fun n u hu => ?_⟩
  obtain ⟨u', hu', hblock, -⟩ := sampleTimes_eq n (writeCell index value (deriveOf index) s)
  obtain rfl : u' = u := Option.some.inj (hu'.symm.trans hu)
  rw [hblock, iterate_tick_voiceAt, ← houtput]
  refine ⟨?_, iterate_toneTick_before, ?_⟩
  · rintro htoggle rfl
    rw [Function.iterate_one, toneTick_of_le htoggle]
  · rintro hlater rfl
    exact iterate_toneTick_full (by omega)

/-- Settles O45: a silent voice is hidden from the mix before and after its tick. -/
theorem disabledVoiceIsSilent : Obligations.DisabledVoiceIsSilent := by
  intro s k volume mode t u htone hnoise ht hu
  rw [exec_sample] at ht hu
  cases ht
  cases hu
  exact congrArg (some ∘ Reply.sample)
    (mix_updateVoice_of_disabled htone hnoise volume mode)

/-- Settles O46: a batch is as many ticks, and each of its samples is the mix after its tick. -/
theorem batchIsRepeatedSample : Obligations.BatchIsRepeatedSample := by
  intro s rest len count hp
  rw [step_request hp]
  refine ⟨fun hlen => ?_, fun hshort => if_pos hshort⟩
  obtain ⟨u, hu, hblock, -⟩ := sampleTimes_eq count { s with pending := rest }
  refine ⟨_, u, _, processSamples_of_le hlen _, hu, (generateMany_block ..).trans hblock.symm,
    rfl, rfl, rfl, rfl, generateMany_length .., fun j x hx => ?_⟩
  obtain ⟨w, hw, hwblock, hwconfig, -⟩ := sampleTimes_eq (j + 1) { s with pending := rest }
  refine ⟨w, hw, ?_⟩
  rw [sampleTimes_reply j _ w hw, hwblock, hwconfig, generateMany_getElem? hx]

/-- Settles O56: the mix adds the voices in order, and the rest is the chain as it stands. -/
theorem binarySampleIsChain : Obligations.BinarySampleIsChain := by
  refine fun s => ⟨_, _, exec_sample s, rfl, ?_⟩
  change sample64 _ (voiceSum64 _ _) = _
  simp only [voiceSum64, addVoice64_eq]
  rfl

end Sys2Proof.Machine

/-! SUPPORT. The walk of the phase for each kind of shape, and the output it leaves (R203 to
R212). -/

namespace Sys2Proof.Machine

/-- The place `x` of 0..63 on the triangle of an alternating shape: up to 31, then down from 31. -/
def OnTriangle (x : ℕ) (e : Envelope) : Prop :=
  e.attack = decide (x ≤ 31) ∧ e.phase.val = if x ≤ 31 then x else 63 - x

/-- A running alternating envelope walks the triangle: it turns at either end, where it stays for
two steps (R206, R207). -/
theorem movePhase_onTriangle {x : ℕ} {e : Envelope} (hcontinue : e.continueFlag = true)
    (halternate : e.alternate = true) (hrun : e.holding = false) (hx : x < 64)
    (h : OnTriangle x e) :
    OnTriangle ((x + 1) % 64) (movePhase e) ∧ (movePhase e).holding = false := by
  obtain ⟨hattack, hphase⟩ := h
  obtain hup | hup := Nat.lt_or_ge x 32
  · rw [if_pos (by omega)] at hphase
    rw [decide_eq_true (by omega)] at hattack
    obtain hbelow | htop := Nat.lt_or_ge x 31
    · rw [movePhase_of_rising hattack (by omega), Nat.mod_eq_of_lt (by omega)]
      exact ⟨⟨hattack.trans (decide_eq_true (by omega)).symm, by
        rw [if_pos (by omega)]; dsimp only; omega⟩, hrun⟩
    · obtain ⟨-, hturn, -⟩ := topPolicy_cases hattack hrun
      obtain ⟨hp, ha, hh⟩ := hturn hcontinue halternate
      obtain rfl : x = 31 := by omega
      rw [movePhase_of_top hattack hphase]
      exact ⟨⟨ha, congrArg Fin.val hp⟩, hh⟩
  · rw [if_neg (by omega)] at hphase
    rw [decide_eq_false (by omega)] at hattack
    obtain habove | hbottom := Nat.lt_or_ge x 63
    · rw [movePhase_of_falling hattack (by omega), Nat.mod_eq_of_lt (by omega)]
      exact ⟨⟨hattack.trans (decide_eq_false (by omega)).symm, by
        rw [if_neg (by omega)]; dsimp only; omega⟩, hrun⟩
    · obtain ⟨-, hturn, -⟩ := bottomPolicy_cases hattack hrun
      obtain ⟨hp, ha, hh⟩ := hturn hcontinue halternate
      obtain rfl : x = 63 := by omega
      rw [movePhase_of_bottom hattack hphase]
      exact ⟨⟨ha, congrArg Fin.val hp⟩, hh⟩

/-- A running rising envelope below the top, or with continue and no turn, walks 0 to 31 around. -/
theorem movePhase_up {e : Envelope} (hattack : e.attack = true) (hrun : e.holding = false)
    (hwrap : e.phase.val = 31 → e.continueFlag = true ∧ e.alternate = false) :
    (movePhase e).attack = true ∧ (movePhase e).phase.val = (e.phase.val + 1) % 32 ∧
      (movePhase e).holding = false := by
  obtain hbelow | htop := Nat.lt_or_ge e.phase.val 31
  · rw [movePhase_of_rising hattack hbelow]
    exact ⟨hattack, by dsimp only; omega, hrun⟩
  · have htop : e.phase.val = 31 := by omega
    obtain ⟨-, -, hpolicy⟩ := topPolicy_cases hattack hrun
    obtain ⟨hcontinue, halternate⟩ := hwrap htop
    obtain ⟨hp, ha, hh⟩ := hpolicy hcontinue halternate
    rw [movePhase_of_top hattack htop, htop]
    exact ⟨ha, congrArg Fin.val hp, hh⟩

/-- A running falling envelope with continue and no turn walks 31 to 0 around. -/
theorem movePhase_down {e : Envelope} (hattack : e.attack = false) (hrun : e.holding = false)
    (hcontinue : e.continueFlag = true) (halternate : e.alternate = false) :
    (movePhase e).attack = false ∧ (movePhase e).phase.val = (e.phase.val + 31) % 32 ∧
      (movePhase e).holding = false := by
  obtain hbottom | habove := Nat.eq_zero_or_pos e.phase.val
  · obtain ⟨-, -, hpolicy⟩ := bottomPolicy_cases hattack hrun
    obtain ⟨hp, ha, hh⟩ := hpolicy hcontinue halternate
    rw [movePhase_of_bottom hattack hbottom, hbottom]
    exact ⟨ha, congrArg Fin.val hp, hh⟩
  · rw [movePhase_of_falling hattack habove]
    exact ⟨hattack, by dsimp only; omega, hrun⟩

/-- The phase and direction of a shape `n` steps after its write, up to the hold. -/
def WalksShape (shape n : ℕ) (e : Envelope) : Prop :=
  if shape < 4 then e.attack = false ∧ e.phase.val = 0
  else if shape < 8 then e.attack = true ∧ e.phase.val = min n 31
  else if shape < 10 then e.attack = false ∧ e.phase.val = 31 - (n + 31) % 32
  else if shape < 12 then OnTriangle ((n + 63) % 64) e
  else if shape < 14 then e.attack = true ∧ e.phase.val = n % 32
  else OnTriangle (n % 64) e

/-- An envelope `n` steps after the write of a shape: its flags, its walk and its hold. -/
structure FollowsShape (shape n : ℕ) (e : Envelope) : Prop where
  continueFlag : e.continueFlag = decide (8 ≤ shape)
  alternate : e.alternate = decide (shape / 2 % 2 = 1)
  walk : WalksShape shape n e
  holding : e.holding = trajectoryHolds shape n

/-- From the first step on the phase is the tabled output (R212). -/
theorem walksShape_phase {shape n : ℕ} {e : Envelope} (hn : n ≠ 0) (h : WalksShape shape n e) :
    e.phase.val = trajectory shape n := by
  rw [trajectory, if_neg hn]
  unfold WalksShape OnTriangle at h
  split_ifs at h ⊢ <;> omega

/-- The shapes with continue never hold. -/
theorem trajectoryHolds_of_continue {shape : ℕ} (h : 8 ≤ shape) (n : ℕ) :
    trajectoryHolds shape n = false := by
  simp only [trajectoryHolds, Bool.or_eq_false_iff, Bool.and_eq_false_iff, decide_eq_false_iff_not]
  omega

/-- When the one-shot shapes hold: the decay after one step, the attack after 32 (R212). -/
theorem trajectoryHolds_of_decay {shape : ℕ} (h : shape < 4) (n : ℕ) :
    trajectoryHolds shape n = decide (1 ≤ n) := by
  simp [trajectoryHolds, h]

theorem trajectoryHolds_of_attack {shape : ℕ} (h4 : 4 ≤ shape) (h8 : shape < 8) (n : ℕ) :
    trajectoryHolds shape n = decide (32 ≤ n) := by
  simp [trajectoryHolds, h4, h8, h4.not_gt]

/-- A step of a running one-shot shape: the decay ends at once, the attack at the top. -/
theorem walksShape_step_of_oneShot {shape n : ℕ} {e : Envelope} (h8 : shape < 8)
    (hstops : e.continueFlag = false) (hwalk : WalksShape shape n e)
    (hrun : trajectoryHolds shape n = false) (hholding : e.holding = false) :
    WalksShape shape (n + 1) (movePhase e) ∧
      (movePhase e).holding = trajectoryHolds shape (n + 1) := by
  unfold WalksShape at hwalk ⊢
  split_ifs at hwalk ⊢ with hdecay
  · obtain ⟨hattack, hphase⟩ := hwalk
    obtain ⟨hpolicy, -⟩ := bottomPolicy_cases hattack hholding
    obtain ⟨hp, ha, hh⟩ := hpolicy hstops
    rw [movePhase_of_bottom hattack hphase, trajectoryHolds_of_decay hdecay]
    exact ⟨⟨ha, congrArg Fin.val hp⟩, hh.trans (decide_eq_true (by omega)).symm⟩
  · obtain ⟨hattack, hphase⟩ := hwalk
    rw [trajectoryHolds_of_attack (by omega) h8, decide_eq_false_iff_not] at hrun
    rw [trajectoryHolds_of_attack (by omega) h8]
    obtain hbelow | htop := Nat.lt_or_ge n 31
    · obtain ⟨ha, hp, hh⟩ := movePhase_up hattack hholding (by omega)
      exact ⟨⟨ha, by omega⟩, hh.trans (decide_eq_false (by omega)).symm⟩
    · obtain ⟨hpolicy, -⟩ := topPolicy_cases hattack hholding
      obtain ⟨hp, ha, hh⟩ := hpolicy hstops
      rw [movePhase_of_top hattack (by omega)]
      exact ⟨⟨ha, (congrArg Fin.val hp).trans (Nat.min_eq_right (by omega)).symm⟩,
        hh.trans (decide_eq_true (by omega)).symm⟩

/-- A step of a shape with continue: around the sawtooth, or along the triangle. -/
theorem walksShape_step_of_continue {shape n : ℕ} {e : Envelope} (h8 : 8 ≤ shape)
    (h16 : shape < 16) (hcontinue : e.continueFlag = true)
    (halternate : e.alternate = decide (shape / 2 % 2 = 1)) (hwalk : WalksShape shape n e)
    (hholding : e.holding = false) :
    WalksShape shape (n + 1) (movePhase e) ∧ (movePhase e).holding = false := by
  unfold WalksShape at hwalk ⊢
  split_ifs at hwalk ⊢
  · omega
  · omega
  · obtain ⟨hattack, hphase⟩ := hwalk
    obtain ⟨ha, hp, hh⟩ := movePhase_down hattack hholding hcontinue
      (halternate.trans (decide_eq_false (by omega)))
    exact ⟨⟨ha, by omega⟩, hh⟩
  · have hnext : (n + 1 + 63) % 64 = ((n + 63) % 64 + 1) % 64 := by omega
    rw [hnext]
    exact movePhase_onTriangle hcontinue (halternate.trans (decide_eq_true (by omega))) hholding
      (Nat.mod_lt _ (by decide)) hwalk
  · obtain ⟨hattack, hphase⟩ := hwalk
    obtain ⟨ha, hp, hh⟩ := movePhase_up hattack hholding
      fun _ => ⟨hcontinue, halternate.trans (decide_eq_false (by omega))⟩
    exact ⟨⟨ha, by omega⟩, hh⟩
  · have hnext : (n + 1) % 64 = (n % 64 + 1) % 64 := by omega
    rw [hnext]
    exact movePhase_onTriangle hcontinue (halternate.trans (decide_eq_true (by omega))) hholding
      (Nat.mod_lt _ (by decide)) hwalk

/-- A running envelope that follows its shape does so after a step. -/
theorem followsShape_step {shape n : ℕ} {e : Envelope} (hshape : shape < 16)
    (h : FollowsShape shape n e) (hrun : e.holding = false) :
    FollowsShape shape (n + 1) (movePhase e) := by
  obtain ⟨hcontinue, halternate, hwalk, hholding⟩ := h
  obtain ⟨-, -, hkeptContinue, hkeptAlternate, -⟩ := movePhase_fields e
  suffices hmove : WalksShape shape (n + 1) (movePhase e) ∧
      (movePhase e).holding = trajectoryHolds shape (n + 1) from
    ⟨hkeptContinue.trans hcontinue, hkeptAlternate.trans halternate, hmove.1, hmove.2⟩
  obtain h8 | h8 := Nat.lt_or_ge shape 8
  · exact walksShape_step_of_oneShot h8 (hcontinue.trans (decide_eq_false (by omega))) hwalk
      (hholding.symm.trans hrun) hrun
  · rw [trajectoryHolds_of_continue h8]
    exact walksShape_step_of_continue h8 hshape (hcontinue.trans (decide_eq_true h8)) halternate
      hwalk hrun

/-- A held envelope goes on following its shape: the one-shot shapes have ended. -/
theorem followsShape_of_holding {shape n : ℕ} {e : Envelope} (h : FollowsShape shape n e)
    (hheld : e.holding = true) : FollowsShape shape (n + 1) e ∧ n ≠ 0 := by
  obtain ⟨hcontinue, halternate, hwalk, hholding⟩ := h
  rw [hheld] at hholding
  have hended : (shape < 4 ∧ 1 ≤ n) ∨ (4 ≤ shape ∧ shape < 8 ∧ 32 ≤ n) := by
    simpa [trajectoryHolds, and_assoc] using hholding.symm
  refine ⟨⟨hcontinue, halternate, ?_, ?_⟩, by omega⟩
  · unfold WalksShape at hwalk ⊢
    split_ifs at hwalk ⊢
    · exact hwalk
    · exact ⟨hwalk.1, by omega⟩
    all_goals omega
  · rw [hheld, eq_comm]
    simp only [trajectoryHolds, Bool.or_eq_true, Bool.and_eq_true, decide_eq_true_eq]
    omega

/-- An envelope of period `p` at step `n` of a shape, with `r` ticks of the next step counted while
it runs. -/
structure AtStep (shape p n r : ℕ) (e : Envelope) : Prop where
  period : e.period = p
  follows : FollowsShape shape n e
  output : e.output.val = trajectory shape n
  counter : e.holding = false → e.counter = r

/-- A held envelope has no continue, so it does not tick; its shape has ended. -/
theorem atStep_tick_of_holding {shape p n r : ℕ} {e : Envelope} (h : AtStep shape p n r e)
    (hheld : e.holding = true) (r' : ℕ) :
    AtStep shape p n r' (envelopeTick .onStep e) ∧
      AtStep shape p (n + 1) r' (envelopeTick .onStep e) := by
  obtain ⟨hperiod, hfollows, houtput, -⟩ := h
  obtain ⟨hnext, hn⟩ := followsShape_of_holding hfollows hheld
  have hgate : e.continueFlag = false := by
    rw [hfollows.continueFlag, decide_eq_false_iff_not]
    intro hgoesOn
    have hholding := hfollows.holding
    rw [hheld, trajectoryHolds_of_continue hgoesOn] at hholding
    cases hholding
  have hphase : e.output = e.phase :=
    Fin.ext (houtput.trans (walksShape_phase hn hfollows.walk).symm)
  rw [envelopeTick_of_gated ⟨hgate, hheld⟩]
  exact ⟨⟨hperiod, hfollows, houtput, by simp [hheld]⟩, hperiod, hnext,
    hphase ▸ walksShape_phase (Nat.succ_ne_zero n) hnext.walk, by simp [hheld]⟩

/-- Below the period a tick counts. -/
theorem atStep_tick_count {shape p n r : ℕ} {e : Envelope} (h : AtStep shape p n r e)
    (hcount : r + 1 < p) : AtStep shape p n (r + 1) (envelopeTick .onStep e) := by
  obtain hheld | hrun := Bool.eq_false_or_eq_true e.holding
  · exact (atStep_tick_of_holding h hheld _).1
  · obtain ⟨rfl, ⟨hcontinue, halternate, hwalk, hholding⟩, houtput, hcounter⟩ := h
    obtain rfl := hcounter hrun
    rw [envelopeTick_of_lt (by simp [hrun]) hcount, if_neg (by simp)]
    exact ⟨rfl, ⟨hcontinue, halternate, hwalk, hholding⟩, houtput, fun _ => rfl⟩

/-- At the period a tick steps, and the output becomes the phase (R203, R208). -/
theorem atStep_tick_step {shape p n r : ℕ} {e : Envelope} (hshape : shape < 16)
    (h : AtStep shape p n r e) (hstep : p ≤ r + 1) :
    AtStep shape p (n + 1) 0 (envelopeTick .onStep e) := by
  obtain hheld | hrun := Bool.eq_false_or_eq_true e.holding
  · exact (atStep_tick_of_holding h hheld _).2
  · obtain ⟨rfl, hfollows, -, hcounter⟩ := h
    obtain rfl := hcounter hrun
    obtain ⟨hkept, -⟩ := movePhase_fields e
    have hnext := followsShape_step hshape hfollows hrun
    have houtput := walksShape_phase (Nat.succ_ne_zero n) hnext.walk
    obtain ⟨hcontinue, halternate, hwalk, hholding⟩ := hnext
    rw [envelopeTick_of_le_running hrun hstep, if_pos (.inl rfl)]
    exact ⟨hkept, ⟨hcontinue, halternate, hwalk, hholding⟩, houtput, fun _ => rfl⟩

/-- After `m` ticks the envelope is at step `m / p`, with `m % p` ticks counted. -/
theorem atStep_iterate {shape p : ℕ} {e : Envelope} (hshape : shape < 16) (hp : 0 < p)
    (h : AtStep shape p 0 0 e) (m : ℕ) :
    AtStep shape p (m / p) (m % p) ((envelopeTick .onStep)^[m] e) := by
  induction m with
  | zero => simpa using h
  | succ m ih =>
    have hm := Nat.mod_add_div m p
    rw [Function.iterate_succ_apply']
    obtain hcount | hstep := Nat.lt_or_ge (m % p + 1) p
    · obtain ⟨hdiv, hmod⟩ : (m + 1) / p = m / p ∧ (m + 1) % p = m % p + 1 :=
        (Nat.div_mod_unique hp).mpr ⟨by omega, hcount⟩
      rw [hdiv, hmod]
      exact atStep_tick_count ih hcount
    · have hlast := Nat.mod_lt m hp
      obtain ⟨hdiv, hmod⟩ : (m + 1) / p = m / p + 1 ∧ (m + 1) % p = 0 :=
        (Nat.div_mod_unique hp).mpr ⟨by rw [Nat.mul_succ]; omega, hp⟩
      rw [hdiv, hmod]
      exact atStep_tick_step hshape ih hstep

/-- The write of a shape starts its trajectory (R162, R210). -/
theorem atStep_deriveShape (b : Block) :
    AtStep ((b.readReg 13).toNat % 16) b.env.period 0 0 (deriveShape b).env := by
  generalize hx : (b.readReg 13).toNat = x
  have hcontinue : shapeContinue b = decide (8 ≤ x % 16) := by
    rw [shapeContinue_eq, hx, decide_eq_decide]
    omega
  have hattack : shapeAttack b = decide (x % 16 / 4 % 2 = 1) := by
    rw [shapeAttack_eq, hx, decide_eq_decide]
    omega
  have halternate : shapeAlternate b = decide (x % 16 / 2 % 2 = 1) := by
    rw [shapeAlternate_eq, hx, decide_eq_decide]
    omega
  rw [deriveShape_env]
  refine ⟨rfl, ⟨hcontinue, halternate, ?_, ?_⟩, ?_, fun _ => rfl⟩
  · have hshape : x % 16 < 16 := Nat.mod_lt _ (by decide)
    generalize x % 16 = shape at *
    dsimp only [WalksShape, OnTriangle]
    rw [hattack]
    clear hcontinue hattack halternate hx
    revert shape
    decide
  · simp [trajectoryHolds]
  · rw [hattack]
    simp only [trajectory, decide_eq_true_eq]
    split <;> rfl

end Sys2Proof.Machine

/-! CLAIMS. The envelope shapes (43_envelope.md section 2). -/

namespace Sys2Proof.Machine

/-- Settles O38: the write starts the shape, and the samples tick the envelope alone. -/
theorem envelopeTrajectories : Obligations.EnvelopeTrajectories := by
  intro s t value m haccepts hrule hperiod ht
  change exec (Instr.ofWrite 13 value) s = _ at ht
  rw [exec_ofWrite, writeCell_of_accepts haccepts] at ht
  cases ht
  have hcell : ((s.block.storeReg 13 (maskByte value)).readReg 13).toNat % 16 =
      (value % 16).toNat := by
    have := maskByte_toNat value
    rw [Block.readReg_storeReg_same]
    omega
  obtain ⟨u, hu, hblock, -⟩ := sampleTimes_eq m
    (s.finish (deriveShape (s.block.storeReg 13 (maskByte value))) .done)
  have hstart := atStep_deriveShape (s.block.storeReg 13 (maskByte value))
  rw [hcell] at hstart
  obtain ⟨-, hfollows, houtput, -⟩ := atStep_iterate (by omega) hperiod hstart m
  refine ⟨u, hu, ?_⟩
  rw [hblock, iterate_tick_env, State.finish_config, hrule]
  exact ⟨houtput, hfollows.holding⟩

end Sys2Proof.Machine

/-! SUPPORT. The generators from reset: the LFSR at period 1, the envelope held after one tick, and
voices of level 0 (R293). -/

namespace Sys2Proof.Machine

/-- At period 1 every noise tick shifts the LFSR. -/
theorem iterate_noiseTick_of_period_one {a : Noise} (h : a.period ≤ 1) (n : ℕ) :
    (noiseTick^[n] a).lfsr = lfsrNext^[n] a.lfsr := by
  induction n generalizing a with
  | zero => rfl
  | succ n ih =>
    rw [Function.iterate_succ_apply, Function.iterate_succ_apply,
      ih (by rw [noiseTick_period]; exact h), noiseTick_lfsr, if_pos (by omega)]

/-- From reset the envelope holds at output 0 from the first tick on. -/
theorem iterate_envelopeTick_reset (n : ℕ) :
    (envelopeTick .onStep)^[n + 1] Envelope.reset = envelopeTick .onStep Envelope.reset := by
  have hheld : envelopeTick .onStep (envelopeTick .onStep Envelope.reset) =
      envelopeTick .onStep Envelope.reset := by decide
  rw [Function.iterate_succ_apply, Function.iterate_fixed hheld]

/-- The voices of a block all at volume 0, none of them in envelope mode. -/
def Block.Muted (b : Block) : Prop :=
  ∀ k, (b.voiceAt k).envelopeEnabled = false ∧ (b.voiceAt k).volume = 0

/-- A muted voice contributes nothing or the level of index 0. -/
theorem contribution_of_muted {b : Block} (h : b.Muted) (c : Config) (k : Fin 3) :
    contribution c b k = none ∨ contribution c b k = some 0 := by
  obtain ⟨hmode, hvolume⟩ := h k
  unfold contribution
  split
  · rw [levelIndex, if_neg (by simp [hmode]), hvolume]
    exact .inr rfl
  · exact .inl rfl

/-- Muted voices mix to 0, exactly and in binary64. -/
theorem mix_of_muted {b : Block} (h : b.Muted) (c : Config) :
    mix c b = { exact := .plain Level.zero, binary64 := 0 } := by
  have hexact : ∀ k, addVoice c b Level.zero k = Level.zero := fun k => by
    obtain hc | hc := contribution_of_muted h c k <;> rw [addVoice, hc]
    rfl
  have hbinary : ∀ k, addVoice64 c b 0 k = 0 := fun k => by
    obtain hc | hc := contribution_of_muted h c k <;> rw [addVoice64, hc]
    change add64 0 0 = 0
    decide
  have hclip : softClip64 c 0 = 0 := if_neg (by decide)
  have hscale : mul64 0 threeTenths64 = 0 := by decide +kernel
  have hdiv : div64 0 three64 = 0 := by decide +kernel
  simp only [mix, voiceSum, voiceSum64, hexact, hbinary, sample64, hdiv, hclip, hscale]
  rfl

/-- Ticks do not touch the levels. -/
theorem iterate_tick_muted {b : Block} (h : b.Muted) (c : Config) (n : ℕ) :
    ((tick c)^[n] b).Muted := by
  refine iterate_tick_keeps (P := Block.Muted) (fun c b hb k => ?_) c n h
  rw [tick_voiceAt, toneTick_envelopeEnabled, toneTick_volume]
  exact hb k

end Sys2Proof.Machine

/-! CLAIMS. From reset with no writes (70_reset_and_hazards.md section 1). -/

namespace Sys2Proof.Machine

/-- Settles O39: each generator from its reset state, and the mix of muted voices. -/
theorem silenceFromReset : Obligations.SilenceFromReset := by
  intro n
  obtain ⟨t, ht, hblock, hconfig, -⟩ := sampleTimes_eq (n + 1) State.reset
  have hvoice : ∀ k, State.reset.block.voiceAt k = Voice.reset := Block.reset_voiceAt
  have hmuted : t.block.Muted :=
    hblock ▸ iterate_tick_muted (fun k => by rw [hvoice]; exact ⟨rfl, rfl⟩) _ _
  have henv : t.block.env = envelopeTick .onStep Envelope.reset := by
    rw [hblock, iterate_tick_env]
    exact iterate_envelopeTick_reset n
  refine ⟨t, ht, fun k => ?_, ?_, by rw [henv]; decide, by rw [henv]; decide, _,
    sampleTimes_reply n _ t ht, ?_, ?_⟩
  · obtain ⟨hcounter, houtput⟩ := iterate_toneTick (v := Voice.reset) (by decide) (n + 1)
    rw [hblock, iterate_tick_voiceAt, hvoice, hcounter, houtput]
    simp [Voice.reset, Nat.mod_one]
  · rw [hblock, iterate_tick_noise]
    exact iterate_noiseTick_of_period_one (a := Noise.reset) (by decide) (n + 1)
  · rw [mix_of_muted hmuted, ExactSample.value, Level.value_zero]
    ring
  · rw [mix_of_muted hmuted]

end Sys2Proof.Machine

/-! SUPPORT. The bounds of the exact sum under an index into the 16-entry table (R242). -/

namespace Sys2Proof.Machine

/-- Up to index 15 a level is at most 1/2, which index 15 alone reaches (R230). -/
theorem realVolume_range {i : ℕ} (h : i ≤ 15) :
    0 ≤ realVolume i ∧ realVolume i ≤ 1 / 2 ∧ (realVolume i = 1 / 2 ↔ i = 15) := by
  obtain rfl | hpos := Nat.eq_zero_or_pos i
  · simp [realVolume]
  obtain rfl | hlt := Nat.eq_or_lt_of_le h
  · norm_num [realVolume]
  have hexp : ((i : ℝ) - 15) / 2 < 0 := by
    have : (i : ℝ) < 15 := by exact_mod_cast hlt
    linarith
  have hone := Real.rpow_lt_one_of_one_lt_of_neg one_lt_two hexp
  have hpow := Real.rpow_pos_of_pos two_pos (((i : ℝ) - 15) / 2)
  rw [realVolume, if_neg hpos.ne']
  exact ⟨by linarith, by linarith, iff_of_false (by linarith) hlt.ne⟩

/-- An index into the 16-entry table is at most 15 (R232, R236). -/
theorem volumeIndex_le {c : Config} {table : Vector (Fin 16) 32}
    (h : c.envLevelRule = .index table) (v : Voice) (e : Envelope) : volumeIndex c v e ≤ 15 := by
  unfold volumeIndex
  rw [h]
  split
  · exact Nat.le_of_lt_succ (table.get e.output).isLt
  · exact Nat.le_of_lt_succ v.volume.isLt

/-- A voice adds at most 1/2, which an open gate at index 15 alone reaches. -/
theorem realLevel_range {c : Config} {table : Vector (Fin 16) 32}
    (h : c.envLevelRule = .index table) (b : Block) (k : Fin 3) :
    0 ≤ realLevel c b k ∧ realLevel c b k ≤ 1 / 2 ∧
      (realLevel c b k = 1 / 2 ↔ GateOpen (b.voiceAt k) b.noise ∧
        volumeIndex c (b.voiceAt k) b.env = 15) := by
  obtain ⟨hlow, hhigh, hfull⟩ := realVolume_range (volumeIndex_le h (b.voiceAt k) b.env)
  by_cases hopen : GateOpen (b.voiceAt k) b.noise
  · rw [realLevel, if_pos hopen]
    exact ⟨hlow, hhigh, hfull.trans (and_iff_right hopen).symm⟩
  · rw [realLevel, if_neg hopen]
    exact ⟨le_rfl, by norm_num, iff_of_false (by norm_num) fun hboth => hopen hboth.1⟩

/-- A sum up to 3/2 is not clipped. -/
theorem exactSample_of_le {sum : Level} (h : sum.value ≤ 3 / 2) : exactSample sum = .plain sum := by
  have hunder : ¬sum.exceedsThree = true := by
    rw [exceedsThree_iff]
    linarith
  rw [exactSample, if_neg hunder]

end Sys2Proof.Machine

/-! CLAIMS. The volume table and the range of a sample (44_mixer.md sections 1 and 5). -/

namespace Sys2Proof.Machine

/-- Settles O40: the exact table by its real formula, the binary64 table by its values. -/
theorem volumeTable : Obligations.VolumeTable := by
  refine ⟨Level.value_zero, fun i hi => ?_, by decide +kernel⟩
  rw [volumeLevel_value, realVolume, if_neg hi]

/-- Settles O42: three levels of at most 1/2 make a sum of at most 3/2, reached by all three
only. -/
theorem sampleRange : Obligations.SampleRange := by
  intro s table htable
  obtain ⟨hA0, hA, hAfull⟩ := realLevel_range htable (tick s.config s.block) 0
  obtain ⟨hB0, hB, hBfull⟩ := realLevel_range htable (tick s.config s.block) 1
  obtain ⟨hC0, hC, hCfull⟩ := realLevel_range htable (tick s.config s.block) 2
  have hsum := voiceSum_value s.config (tick s.config s.block)
  have hplain : (mix s.config (tick s.config s.block)).exact =
      .plain (voiceSum s.config (tick s.config s.block)) := exactSample_of_le (by linarith)
  refine ⟨_, _, exec_sample s, rfl, ?_⟩
  rw [hplain, ExactSample.value, hsum]
  refine ⟨by linarith, by linarith, nofun, fun hfull => ?_, fun hfull => ?_⟩
  · intro k
    fin_cases k
    · exact hAfull.mp (by linarith)
    · exact hBfull.mp (by linarith)
    · exact hCfull.mp (by linarith)
  · rw [hAfull.mpr (hfull 0), hBfull.mpr (hfull 1), hCfull.mpr (hfull 2)]
    norm_num

end Sys2Proof.Machine

/-! SUPPORT. The output bits of the LFSR satisfy the recurrence of its feedback, the trinomial
`X^17 + X^3 + 1` over the two-element field, and the trinomial divides `X^131071 + 1` (R191,
R194). -/

namespace Sys2Proof.Machine

open Polynomial

/-- In characteristic 2 the square of a sum is the sum of the squares. -/
theorem add_sq_of_two {R : Type*} [CommRing R] (h2 : (2 : R) = 0) (x y : R) :
    (x + y) ^ 2 = x ^ 2 + y ^ 2 := by
  linear_combination x * y * h2

/-- The square of a power doubles the exponent. -/
theorem pow_double {R : Type*} [CommRing R] {x p q : R} {n : ℕ} (h : x ^ n = p) (hsq : p ^ 2 = q) :
    x ^ (2 * n) = q := by
  rw [mul_comm, pow_mul, h, hsq]

/-- A root of the trinomial is kept by squaring it 17 times. Each square is the sum of the squares,
reduced by the trinomial. -/
theorem pow_131072_of_root {R : Type*} [CommRing R] (h2 : (2 : R) = 0) {x : R}
    (h : x ^ 17 = x ^ 3 + 1) : x ^ 131072 = x := by
  have h5 : x ^ 32 = x ^ 15 + x ^ 4 + x := by linear_combination (x ^ 15 + x) * h
  have h6 : x ^ 64 = x ^ 16 + x ^ 13 + x ^ 8 + x ^ 2 :=
    pow_double h5 (by
      simp only [add_sq_of_two h2]
      linear_combination (x ^ 13) * h)
  have h7 : x ^ 128 = x ^ 16 + x ^ 15 + x ^ 12 + x ^ 9 + x :=
    pow_double h6 (by
      simp only [add_sq_of_two h2]
      linear_combination (x ^ 15 + x ^ 9 + x) * h + (x ^ 4) * h2)
  have h8 : x ^ 256 = x ^ 16 + x ^ 15 + x ^ 13 + x ^ 10 + x ^ 7 + x ^ 2 :=
    pow_double h7 (by
      simp only [add_sq_of_two h2]
      linear_combination (x ^ 15 + x ^ 13 + x ^ 7) * h + (x ^ 18) * h2)
  have h9 : x ^ 512 = x ^ 16 + x ^ 15 + x ^ 14 + x ^ 13 + x ^ 12 + x ^ 9 + x ^ 6 + x ^ 3 + x :=
    pow_double h8 (by
      simp only [add_sq_of_two h2]
      linear_combination (x ^ 15 + x ^ 13 + x ^ 9 + x ^ 3 + x) * h + (x ^ 4) * h2)
  have h10 : x ^ 1024 =
      x ^ 16 + x ^ 15 + x ^ 14 + x ^ 13 + x ^ 11 + x ^ 10 + x ^ 9 + x ^ 7 + x ^ 6 + x ^ 2 :=
    pow_double h9 (by
      simp only [add_sq_of_two h2]
      linear_combination (x ^ 15 + x ^ 13 + x ^ 11 + x ^ 9 + x ^ 7) * h +
        (x ^ 18 + x ^ 12) * h2)
  have h11 : x ^ 2048 =
      x ^ 16 + x ^ 15 + x ^ 13 + x ^ 11 + x ^ 9 + x ^ 8 + x ^ 6 + x ^ 5 + x ^ 4 + x ^ 3 :=
    pow_double h10 (by
      simp only [add_sq_of_two h2]
      linear_combination (x ^ 15 + x ^ 13 + x ^ 11 + x ^ 9 + x ^ 5 + x ^ 3) * h +
        (x ^ 18 + x ^ 14 + x ^ 12) * h2)
  have h12 : x ^ 4096 = x ^ 15 + x ^ 13 + x ^ 10 + x ^ 9 + x ^ 6 + x ^ 5 :=
    pow_double h11 (by
      simp only [add_sq_of_two h2]
      linear_combination (x ^ 15 + x ^ 13 + x ^ 9 + x ^ 5) * h +
        (x ^ 18 + x ^ 16 + x ^ 12 + x ^ 8) * h2)
  have h13 : x ^ 8192 = x ^ 16 + x ^ 13 + x ^ 10 + x ^ 9 + x ^ 6 + x ^ 4 + x ^ 3 + x :=
    pow_double h12 (by
      simp only [add_sq_of_two h2]
      linear_combination (x ^ 13 + x ^ 9 + x ^ 3 + x) * h + (x ^ 12) * h2)
  have h14 : x ^ 16384 = x ^ 15 + x ^ 9 + x ^ 8 + x ^ 3 + x ^ 2 :=
    pow_double h13 (by
      simp only [add_sq_of_two h2]
      linear_combination (x ^ 15 + x ^ 9 + x ^ 3) * h + (x ^ 18 + x ^ 12 + x ^ 6) * h2)
  have h15 : x ^ 32768 = x ^ 13 + x ^ 6 + x :=
    pow_double h14 (by
      simp only [add_sq_of_two h2]
      linear_combination (x ^ 13 + x) * h + (x ^ 16 + x ^ 4) * h2)
  have h16 : x ^ 65536 = x ^ 9 + x ^ 2 :=
    pow_double h15 (by
      simp only [add_sq_of_two h2]
      linear_combination (x ^ 9) * h + (x ^ 12) * h2)
  have h17 : x ^ 131072 = x :=
    pow_double h16 (by
      simp only [add_sq_of_two h2]
      linear_combination (x) * h + (x ^ 4) * h2)
  exact h17

/-- A root of the trinomial is a unit, so 131071 is a multiple of its order. -/
theorem pow_131071_of_root {R : Type*} [CommRing R] (h2 : (2 : R) = 0) {x : R}
    (h : x ^ 17 = x ^ 3 + 1) : x ^ 131071 = 1 := by
  have hunit : x * (x ^ 16 - x ^ 2) = 1 := by linear_combination h
  calc x ^ 131071 = x ^ 131072 * (x ^ 16 - x ^ 2) := by
        rw [pow_succ x 131071, mul_assoc, hunit, mul_one]
    _ = 1 := by rw [pow_131072_of_root h2 h, hunit]

/-- The feedback trinomial (R191). -/
noncomputable def feedbackPolynomial : (ZMod 2)[X] := X ^ 17 - (X ^ 3 + 1)

/-- The trinomial divides `X^n - 1` if in the ring of its root the power is 1. -/
theorem feedbackPolynomial_dvd {n : ℕ} (h : AdjoinRoot.root feedbackPolynomial ^ n = 1) :
    feedbackPolynomial ∣ X ^ n - 1 := by
  rw [← AdjoinRoot.mk_eq_mk, map_pow, map_one, AdjoinRoot.mk_X, h]

/-- In the ring of the trinomial's root the power is 1. -/
theorem root_feedbackPolynomial_pow : AdjoinRoot.root feedbackPolynomial ^ 131071 = 1 := by
  have htwo : (2 : AdjoinRoot feedbackPolynomial) = 0 := by
    rw [← map_ofNat (AdjoinRoot.of feedbackPolynomial) 2,
      show (OfNat.ofNat 2 : ZMod 2) = 0 from rfl, map_zero]
  have hroot : AdjoinRoot.root feedbackPolynomial ^ 17 =
      AdjoinRoot.root feedbackPolynomial ^ 3 + 1 := by
    have hself : AdjoinRoot.mk feedbackPolynomial (X ^ 17 - (X ^ 3 + 1)) = 0 := AdjoinRoot.mk_self
    simpa [sub_eq_zero] using hself
  exact pow_131071_of_root htwo hroot

/-- The shift of a sequence by one place, as a linear map. -/
def shiftSequence : (ℕ → ZMod 2) →ₗ[ZMod 2] (ℕ → ZMod 2) :=
  LinearMap.funLeft (ZMod 2) (ZMod 2) Nat.succ

theorem shiftSequence_pow (k : ℕ) (a : ℕ → ZMod 2) (n : ℕ) :
    (shiftSequence ^ k) a n = a (n + k) := by
  induction k generalizing a with
  | zero => rfl
  | succ k ih =>
    rw [pow_succ, Module.End.mul_apply, ih]
    rfl

/-- A sequence with the recurrence of the feedback has period 131071. -/
theorem periodic_of_recurrence {a : ℕ → ZMod 2} (h : ∀ n, a (n + 17) = a (n + 3) + a n) (n : ℕ) :
    a (n + 131071) = a n := by
  have hzero : aeval shiftSequence feedbackPolynomial a = 0 := by
    funext n
    simp [feedbackPolynomial, shiftSequence_pow, h]
  obtain ⟨c, hc⟩ := feedbackPolynomial_dvd root_feedbackPolynomial_pow
  have hshift : aeval shiftSequence (X ^ 131071 - 1 : (ZMod 2)[X]) a = 0 := by
    rw [hc, mul_comm, map_mul, Module.End.mul_apply, hzero, map_zero]
  have hn := congrFun hshift n
  simp only [map_sub, map_pow, aeval_X, map_one, LinearMap.sub_apply, Pi.sub_apply,
    shiftSequence_pow, Module.End.one_apply, Pi.zero_apply] at hn
  exact sub_eq_zero.mp hn

/-! The output bits of the LFSR are such a sequence, and 17 of them in a row are its state. -/

/-- A shift moves every bit down one place and feeds bits 0 and 3 back to bit 16 (R191). -/
theorem lfsrNext_getLsbD (l : LfsrWord) {i : ℕ} (hi : i < 16) :
    (lfsrNext l).getLsbD i = l.getLsbD (i + 1) := by
  have hne : ¬16 ≤ i := by omega
  simp [lfsrNext, Nat.add_comm, hi]

theorem lfsrNext_getLsbD_top (l : LfsrWord) :
    (lfsrNext l).getLsbD 16 = (l.getLsbD 0 ^^ l.getLsbD 3) := by
  simp [lfsrNext]

/-- Bit `i` of the LFSR is bit 0 of the LFSR `i` steps later. -/
theorem iterate_lfsrNext_getLsbD (l : LfsrWord) {i : ℕ} (hi : i < 17) :
    l.getLsbD i = (lfsrNext^[i] l).getLsbD 0 := by
  induction i generalizing l with
  | zero => rfl
  | succ i ih =>
    rw [Function.iterate_succ_apply, ← ih (lfsrNext l) (by omega), lfsrNext_getLsbD l (by omega)]

/-- Bit 0 of the LFSR `n` steps on, in the two-element field. -/
def lfsrBit (l : LfsrWord) (n : ℕ) : ZMod 2 := if (lfsrNext^[n] l).getLsbD 0 then 1 else 0

/-- The recurrence of the feedback (R191). -/
theorem lfsrBit_recurrence (l : LfsrWord) (n : ℕ) :
    lfsrBit l (n + 17) = lfsrBit l (n + 3) + lfsrBit l n := by
  have hbit : ∀ i < 17, (lfsrNext^[n + i] l).getLsbD 0 = (lfsrNext^[n] l).getLsbD i := by
    intro i hi
    rw [iterate_lfsrNext_getLsbD _ hi, ← Function.iterate_add_apply, Nat.add_comm]
  have hfed : (lfsrNext^[n + 17] l).getLsbD 0 =
      ((lfsrNext^[n] l).getLsbD 0 ^^ (lfsrNext^[n] l).getLsbD 3) := by
    rw [← lfsrNext_getLsbD_top, iterate_lfsrNext_getLsbD _ (by decide : 16 < 17),
      ← Function.iterate_succ_apply, ← Function.iterate_add_apply, Nat.add_comm]
  rw [lfsrBit, lfsrBit, lfsrBit, hfed, hbit 3 (by decide)]
  cases (lfsrNext^[n] l).getLsbD 0 <;> cases (lfsrNext^[n] l).getLsbD 3 <;> decide

/-- From every word the LFSR returns after 131071 steps (R194). -/
theorem lfsrNext_isPeriodicPt (l : LfsrWord) : Function.IsPeriodicPt lfsrNext 131071 l := by
  apply BitVec.eq_of_getLsbD_eq
  intro i hi
  have hbits := periodic_of_recurrence (lfsrBit_recurrence l) i
  rw [iterate_lfsrNext_getLsbD _ hi, iterate_lfsrNext_getLsbD l hi, ← Function.iterate_add_apply]
  have hinj : ∀ p q : Bool, (if p then (1 : ZMod 2) else 0) = (if q then 1 else 0) → p = q := by
    decide
  exact hinj _ _ hbits

/-- 131071 is a prime, so it is the least period of the seed (R194). -/
theorem minimalPeriod_lfsrNext : Function.minimalPeriod lfsrNext 1 = 131071 := by
  have : Fact (Nat.Prime 131071) := ⟨by norm_num⟩
  exact Function.minimalPeriod_eq_prime (lfsrNext_isPeriodicPt 1) (by decide)

/-- The LFSR never reaches 0 from the seed (R61). -/
theorem iterate_lfsrNext_ne_zero {l : LfsrWord} (h : l ≠ 0) (n : ℕ) : lfsrNext^[n] l ≠ 0 := by
  induction n generalizing l with
  | zero => exact h
  | succ n ih => exact ih (lfsrNext_ne_zero h)

/-- In a cycle the LFSR visits no word twice. -/
theorem injOn_iterate_lfsrNext :
    Set.InjOn (fun n => (lfsrNext^[n + 1] 1).toNat) (Finset.range 131071) := by
  have hperiod : Function.minimalPeriod lfsrNext (lfsrNext 1) = 131071 :=
    (Function.minimalPeriod_apply ⟨131071, by decide, lfsrNext_isPeriodicPt 1⟩).trans
      minimalPeriod_lfsrNext
  have hinj := Function.iterate_injOn_Iio_minimalPeriod (f := lfsrNext) (x := lfsrNext 1)
  rw [hperiod] at hinj
  intro m hm n hn h
  exact hinj (by simpa using hm) (by simpa using hn) (BitVec.eq_of_toNat_eq h)

/-- So it visits all words but 0, given here by their numbers (R194). -/
theorem image_iterate_lfsrNext :
    (Finset.range 131071).image (fun n => (lfsrNext^[n + 1] 1).toNat) = Finset.Ico 1 131072 := by
  apply Finset.eq_of_subset_of_card_le
  · intro x hx
    obtain ⟨n, -, rfl⟩ := Finset.mem_image.mp hx
    have hne := iterate_lfsrNext_ne_zero (l := 1) (by decide) (n + 1)
    have hpos : (lfsrNext^[n + 1] 1).toNat ≠ 0 := fun h => hne (BitVec.eq_of_toNat_eq h)
    exact Finset.mem_Ico.mpr ⟨Nat.pos_of_ne_zero hpos, (lfsrNext^[n + 1] 1).isLt⟩
  · rw [Finset.card_image_of_injOn injOn_iterate_lfsrNext]
    simp

/-- Of the numbers below `2 m` the odd ones are `m`. -/
theorem card_odd_below (m : ℕ) : ((Finset.Ico 1 (2 * m)).filter (· ≡ 1 [MOD 2])).card = m := by
  have himage : (Finset.Ico 1 (2 * m)).filter (· ≡ 1 [MOD 2]) =
      (Finset.range m).image (2 * · + 1) := by
    ext x
    simp only [Finset.mem_filter, Finset.mem_Ico, Finset.mem_image, Finset.mem_range]
    unfold Nat.ModEq
    exact ⟨fun _ => ⟨x / 2, by omega, by omega⟩, by rintro ⟨k, hk, rfl⟩; omega⟩
  rw [himage, Finset.card_image_of_injective _ fun i j h => by simpa using h,
    Finset.card_range]

/-- The words with output bit 1 are those of odd number, and 65536 of them are below 131072. -/
theorem card_lfsrNext_output :
    ((Finset.range 131071).filter fun n => (lfsrNext^[n + 1] 1).getLsbD 0 = true).card = 65536 := by
  have hodd : ∀ l : LfsrWord, l.getLsbD 0 = true ↔ l.toNat ≡ 1 [MOD 2] := fun l => by
    rw [BitVec.getLsbD, Nat.testBit_zero, decide_eq_true_eq]
    rfl
  have hinj := injOn_iterate_lfsrNext.mono (Finset.coe_subset.mpr
    (Finset.filter_subset (fun n => (lfsrNext^[n + 1] 1).toNat ≡ 1 [MOD 2]) _))
  simp only [hodd]
  calc _ = (((Finset.range 131071).image fun n => (lfsrNext^[n + 1] 1).toNat).filter
        (· ≡ 1 [MOD 2])).card := by
          rw [Finset.filter_image, Finset.card_image_of_injOn hinj]
    _ = 65536 := by
      rw [image_iterate_lfsrNext]
      exact card_odd_below 65536

end Sys2Proof.Machine

/-! CLAIMS. The noise sequence (42_noise.md). -/

namespace Sys2Proof.Machine

/-- Settles O37: the prime period of the seed, and the odd words among all words but 0. -/
theorem noiseFullPeriod : Obligations.NoiseFullPeriod := by
  refine ⟨lfsrNext_isPeriodicPt 1, fun n hpos hlt h => ?_,
    iterate_lfsrNext_ne_zero (by decide), ?_⟩
  · exact Function.not_isPeriodicPt_of_pos_of_lt_minimalPeriod hpos.ne'
      (minimalPeriod_lfsrNext.symm ▸ hlt) h
  · exact card_lfsrNext_output

end Sys2Proof.Machine

/-! SUPPORT. The rounding of the binary64 profile: magnitudes as numbers of units, and the nearest
one (decision D14, R15). -/

namespace Sys2Proof.Machine

/-- A magnitude is a significand scaled by its exponent; a significand of `2^53` is the first of the
next exponent. -/
theorem magnitudeUnits_eq {s k : ℕ} (hk : k ≤ 2 ^ 53) (hs : s = 0 ∨ 2 ^ 52 ≤ k) :
    magnitudeUnits (s * 2 ^ 52 + k) = k * 2 ^ s := by
  unfold magnitudeUnits
  split
  · obtain rfl : s = 0 := by omega
    simp
  · obtain hlt | rfl := Nat.lt_or_eq_of_le hk
    · have hexponent : (s * 2 ^ 52 + k) / 2 ^ 52 - 1 = s := by omega
      have hfraction : 2 ^ 52 + (s * 2 ^ 52 + k) % 2 ^ 52 = k := by omega
      rw [hexponent, hfraction]
    · have hexponent : (s * 2 ^ 52 + 2 ^ 53) / 2 ^ 52 - 1 = s + 1 := by omega
      have hfraction : 2 ^ 52 + (s * 2 ^ 52 + 2 ^ 53) % 2 ^ 52 = 2 ^ 52 := by omega
      rw [hexponent, hfraction, pow_succ']
      ring

/-- Every magnitude has a significand and an exponent. -/
theorem exists_significand (m : ℕ) :
    ∃ s k, m = s * 2 ^ 52 + k ∧ k < 2 ^ 53 ∧ (s = 0 ∨ 2 ^ 52 ≤ k) := by
  obtain hsmall | hlarge := Nat.lt_or_ge m (2 ^ 53)
  · exact ⟨0, m, by omega, hsmall, .inl rfl⟩
  · exact ⟨m / 2 ^ 52 - 1, 2 ^ 52 + m % 2 ^ 52, by omega, by omega, .inr (by omega)⟩

/-- Magnitudes are in the order of their numbers of units. -/
theorem magnitudeUnits_strictMono : StrictMono magnitudeUnits := by
  refine strictMono_nat_of_lt_succ fun m => ?_
  obtain ⟨s, k, rfl, hk, hs⟩ := exists_significand m
  rw [magnitudeUnits_eq hk.le hs, add_assoc, magnitudeUnits_eq (k := k + 1) hk (by omega)]
  exact Nat.mul_lt_mul_of_pos_right (Nat.lt_succ_self k) (Nat.two_pow_pos s)

/-- The rounding before it is cut at the infinity. -/
def unboundedRound (num den : ℕ) : ℕ :=
  ((num / den).log2 - 52) * 2 ^ 52 + nearestEven num (den * 2 ^ ((num / den).log2 - 52))

theorem roundBits_eq (num den : ℕ) :
    roundBits num den = min (unboundedRound num den) (2047 * 2 ^ 52) := by
  simp only [roundBits, unboundedRound, Nat.shiftLeft_eq]

/-- The two integers around a quotient, with the nearer one chosen and a tie to the even one. -/
theorem nearestEven_cases (num den : ℕ) :
    (nearestEven num den = num / den ∧ 2 * (num % den) ≤ den ∧
      (2 * (num % den) = den → num / den % 2 = 0)) ∨
    (nearestEven num den = num / den + 1 ∧ den ≤ 2 * (num % den) ∧
      (2 * (num % den) = den → (num / den + 1) % 2 = 0)) := by
  simp only [nearestEven]
  split_ifs <;> omega

/-- The significand that the rounding takes has 53 bits, or the number is a small one. -/
theorem scaledQuotient_range (num den : ℕ) :
    let s := (num / den).log2 - 52
    num / (den * 2 ^ s) < 2 ^ 53 ∧ (s = 0 ∨ 2 ^ 52 ≤ num / (den * 2 ^ s)) := by
  intro s
  rw [← Nat.div_div_eq_div_mul]
  have hlt : num / den < 2 ^ ((num / den).log2 + 1) := Nat.lt_log2_self
  obtain hsmall | hlarge := le_or_gt (num / den).log2 52
  · have hzero : s = 0 := by omega
    have hpow : 2 ^ ((num / den).log2 + 1) ≤ 2 ^ 53 := Nat.pow_le_pow_right two_pos (by omega)
    rw [hzero, pow_zero, Nat.div_one]
    exact ⟨hlt.trans_le hpow, .inl rfl⟩
  · have hne : num / den ≠ 0 := fun h => by simp [h] at hlarge
    have hle : 2 ^ (num / den).log2 ≤ num / den := Nat.log2_self_le hne
    have hup : 2 ^ 53 * 2 ^ s = 2 ^ ((num / den).log2 + 1) := by
      rw [← pow_add]
      congr 1
      omega
    have hdown : 2 ^ 52 * 2 ^ s = 2 ^ (num / den).log2 := by
      rw [← pow_add]
      congr 1
      omega
    exact ⟨Nat.div_lt_of_lt_mul (by rw [mul_comm, hup]; exact hlt),
      .inr ((Nat.le_div_iff_mul_le (Nat.two_pow_pos s)).mpr (by rw [hdown]; exact hle))⟩

/-- Of two neighbours around `v` the nearer one is as near as any number outside them. -/
theorem nearest_of_neighbours {lo hi v r y : ℚ} (hlo : lo ≤ v) (hhi : v ≤ hi)
    (hr : r = lo ∧ v - lo ≤ hi - v ∨ r = hi ∧ hi - v ≤ v - lo) (hy : y ≤ lo ∨ hi ≤ y) :
    |r - v| ≤ |y - v| ∧ (|r - v| = |y - v| → y = r ∨ v - lo = hi - v) := by
  have hbelow : ∀ x : ℚ, x ≤ lo → |x - v| = v - x := fun x hx => by
    rw [abs_of_nonpos (by linarith)]
    ring
  have habove : ∀ x : ℚ, hi ≤ x → |x - v| = x - v := fun x hx => abs_of_nonneg (by linarith)
  obtain ⟨rfl, hnear⟩ | ⟨rfl, hnear⟩ := hr <;> obtain hy | hy := hy
  · rw [hbelow r le_rfl, hbelow y hy]
    exact ⟨by linarith, fun h => .inl (by linarith)⟩
  · rw [hbelow r le_rfl, habove y hy]
    exact ⟨by linarith, fun h => .inr (by linarith)⟩
  · rw [habove r le_rfl, hbelow y hy]
    exact ⟨by linarith, fun h => .inr (by linarith)⟩
  · rw [habove r le_rfl, habove y hy]
    exact ⟨by linarith, fun h => .inl (by linarith)⟩

/-- A scaled quotient and its remainder around the number they divide. -/
theorem quotient_bounds {num den : ℕ} (hden : 0 < den) (s : ℕ) :
    let f := num / (den * 2 ^ s)
    let r := num % (den * 2 ^ s)
    (num : ℚ) / den - ((f * 2 ^ s : ℕ) : ℚ) = r / den ∧
      (((f + 1) * 2 ^ s : ℕ) : ℚ) - (num : ℚ) / den = ((den * 2 ^ s : ℕ) - r : ℚ) / den := by
  intro f r
  have hdiv : ((den * 2 ^ s * f + r : ℕ) : ℚ) = num := by rw [Nat.div_add_mod]
  have hpos : (den : ℚ) ≠ 0 := by exact_mod_cast hden.ne'
  push_cast at hdiv ⊢
  constructor <;> field_simp <;> linarith

/-- The rounding is one of the two magnitudes around `num / den` units, the nearer one, and even at
a tie. -/
theorem unboundedRound_cases {num den : ℕ} (hden : 0 < den) :
    ∃ n, (magnitudeUnits n : ℚ) ≤ num / den ∧ (num : ℚ) / den ≤ magnitudeUnits (n + 1) ∧
      (unboundedRound num den = n ∧
          (num : ℚ) / den - magnitudeUnits n ≤ magnitudeUnits (n + 1) - (num : ℚ) / den ∨
        unboundedRound num den = n + 1 ∧
          magnitudeUnits (n + 1) - (num : ℚ) / den ≤ (num : ℚ) / den - magnitudeUnits n) ∧
      ((num : ℚ) / den - magnitudeUnits n = magnitudeUnits (n + 1) - (num : ℚ) / den →
        unboundedRound num den % 2 = 0) := by
  obtain ⟨hf, hs⟩ := scaledQuotient_range num den
  have hchoice := nearestEven_cases num (den * 2 ^ ((num / den).log2 - 52))
  obtain ⟨hlow, hhigh⟩ := quotient_bounds (num := num) hden ((num / den).log2 - 52)
  have hrest := Nat.mod_lt num (Nat.mul_pos hden (Nat.two_pow_pos ((num / den).log2 - 52)))
  unfold unboundedRound
  generalize (num / den).log2 - 52 = s at *
  generalize num / (den * 2 ^ s) = f at *
  generalize num % (den * 2 ^ s) = r at *
  generalize den * 2 ^ s = D at *
  rw [← magnitudeUnits_eq hf.le hs] at hlow
  rw [← magnitudeUnits_eq (s := s) (k := f + 1) hf (by omega)] at hhigh
  have hposd : (0 : ℚ) < den := by exact_mod_cast hden
  have hfits : (r : ℚ) ≤ D := by exact_mod_cast hrest.le
  have hbelow : 0 ≤ (r : ℚ) / den := by positivity
  have habove : 0 ≤ ((D : ℚ) - r) / den := div_nonneg (by linarith) hposd.le
  refine ⟨s * 2 ^ 52 + f, by linarith, by rw [add_assoc]; linarith, ?_, fun htie => ?_⟩ <;>
    rw [add_assoc, hlow, hhigh] at *
  · rw [div_le_div_iff_of_pos_right hposd, div_le_div_iff_of_pos_right hposd]
    refine hchoice.imp (fun ⟨hk, hhalf, _⟩ => ⟨by rw [hk], ?_⟩)
      fun ⟨hk, hhalf, _⟩ => ⟨by rw [hk], ?_⟩
    · have : 2 * (r : ℚ) ≤ D := by exact_mod_cast hhalf
      linarith
    · have : (D : ℚ) ≤ 2 * r := by exact_mod_cast hhalf
      linarith
  · rw [div_left_inj' hposd.ne'] at htie
    have htwice : 2 * (r : ℚ) = D := by linarith
    have htwice : 2 * r = D := by exact_mod_cast htwice
    obtain ⟨hk, -, heven⟩ | ⟨hk, -, heven⟩ := hchoice <;>
      · have := heven htwice
        omega

/-- No magnitude is nearer to `num / den` units than the rounding, and one as near leaves the
rounding even. -/
theorem unboundedRound_nearest {num den : ℕ} (hden : 0 < den) (m : ℕ) :
    |(magnitudeUnits (unboundedRound num den) : ℚ) - num / den| ≤
        |(magnitudeUnits m : ℚ) - num / den| ∧
      (|(magnitudeUnits (unboundedRound num den) : ℚ) - num / den| =
          |(magnitudeUnits m : ℚ) - num / den| →
        m = unboundedRound num den ∨ unboundedRound num den % 2 = 0) := by
  obtain ⟨n, hlow, hhigh, hchoice, heven⟩ := unboundedRound_cases (num := num) hden
  have houtside : (magnitudeUnits m : ℚ) ≤ magnitudeUnits n ∨
      (magnitudeUnits (n + 1) : ℚ) ≤ magnitudeUnits m := by
    obtain h | h := Nat.lt_or_ge n m
    · exact .inr (by exact_mod_cast magnitudeUnits_strictMono.monotone h)
    · exact .inl (by exact_mod_cast magnitudeUnits_strictMono.monotone h)
  have hunits : ∀ j, unboundedRound num den = j →
      (magnitudeUnits (unboundedRound num den) : ℚ) = magnitudeUnits j := fun j h => by rw [h]
  obtain ⟨hle, heq⟩ := nearest_of_neighbours hlow hhigh
    (hchoice.imp (And.imp_left (hunits n)) (And.imp_left (hunits (n + 1)))) houtside
  exact ⟨hle, fun h => (heq h).imp
    (fun hunits => magnitudeUnits_strictMono.injective (by exact_mod_cast hunits)) heven⟩

/-- A number of units that is at most a magnitude's rounds to at most that magnitude. -/
theorem unboundedRound_le {num den m : ℕ} (hden : 0 < den)
    (h : (num : ℚ) / den ≤ magnitudeUnits m) : unboundedRound num den ≤ m := by
  by_contra hlt
  have hunits : (magnitudeUnits m : ℚ) < magnitudeUnits (unboundedRound num den) := by
    exact_mod_cast magnitudeUnits_strictMono (not_le.mp hlt)
  obtain ⟨hnear, -⟩ := unboundedRound_nearest (num := num) hden m
  rw [abs_of_nonneg (by linarith), abs_of_nonneg (by linarith)] at hnear
  linarith

end Sys2Proof.Machine

/-! CLAIMS. The rounding (00_scope.md section 6). -/

namespace Sys2Proof.Machine

/-- Settles O44: a finite rounding is not cut. -/
theorem roundingIsNearestEven : Obligations.RoundingIsNearestEven := by
  intro num den m hden _ hfinite
  have hround : roundBits num den = unboundedRound num den := by
    rw [roundBits_eq] at hfinite ⊢
    exact min_eq_left (by omega)
  rw [hround]
  exact unboundedRound_nearest hden m

end Sys2Proof.Machine

/-! SUPPORT. The rounding of signed numbers: from magnitudes to `RoundsTo` (decision D14). -/

namespace Sys2Proof.Machine

/-- The first magnitude of an exponent and the one before it, in units. -/
theorem magnitudeUnits_next (s : ℕ) :
    (magnitudeUnits (s * 2 ^ 52 + 2 ^ 53) : ℚ) = 2 ^ 53 * 2 ^ s := by
  rw [magnitudeUnits_eq le_rfl (.inr (by decide)), Nat.cast_mul]
  norm_num

theorem magnitudeUnits_last (s : ℕ) :
    (magnitudeUnits (s * 2 ^ 52 + (2 ^ 53 - 1)) : ℚ) = (2 ^ 53 - 1) * 2 ^ s := by
  rw [magnitudeUnits_eq (by decide) (.inr (by decide)), Nat.cast_mul]
  norm_num

/-- A rounding below the first magnitude of an exponent is of a number below the middle between that
magnitude and the one before it: from the middle on the first magnitude is as near, and the one
before it is odd. -/
theorem lt_middle_of_unboundedRound_lt {num den : ℕ} (hden : 0 < den) {s : ℕ}
    (h : unboundedRound num den < s * 2 ^ 52 + 2 ^ 53) :
    (num : ℚ) / den < (2 ^ 53 - 1 / 2) * 2 ^ s := by
  have hnext := magnitudeUnits_next s
  have hlast := magnitudeUnits_last s
  have hpow : (0 : ℚ) < 2 ^ s := by positivity
  have hle : (magnitudeUnits (unboundedRound num den) : ℚ) ≤
      magnitudeUnits (s * 2 ^ 52 + (2 ^ 53 - 1)) := by
    exact_mod_cast magnitudeUnits_strictMono.monotone (by omega)
  obtain ⟨hdist, htie⟩ := unboundedRound_nearest (num := num) hden (s * 2 ^ 52 + 2 ^ 53)
  generalize (num : ℚ) / den = v at *
  generalize (2 : ℚ) ^ s = t at *
  by_contra hmiddle
  rw [abs_of_nonpos (by linarith)] at hdist htie
  obtain hv | hv := le_or_gt v (magnitudeUnits (s * 2 ^ 52 + 2 ^ 53))
  · rw [abs_of_nonneg (by linarith)] at hdist htie
    have hsame : (magnitudeUnits (unboundedRound num den) : ℚ) =
        magnitudeUnits (s * 2 ^ 52 + (2 ^ 53 - 1)) := by linarith
    have hodd : unboundedRound num den = s * 2 ^ 52 + (2 ^ 53 - 1) :=
      magnitudeUnits_strictMono.injective (by exact_mod_cast hsame)
    have := htie (by linarith)
    omega
  · rw [abs_of_neg (by linarith)] at hdist
    linarith

/-- Below that middle the magnitude before is nearer than any from the first on. -/
theorem unboundedRound_lt_of_lt_middle {num den : ℕ} (hden : 0 < den) {s : ℕ}
    (h : (num : ℚ) / den < (2 ^ 53 - 1 / 2) * 2 ^ s) :
    unboundedRound num den < s * 2 ^ 52 + 2 ^ 53 := by
  have hnext := magnitudeUnits_next s
  have hlast := magnitudeUnits_last s
  have hpow : (0 : ℚ) < 2 ^ s := by positivity
  by_contra hR
  have hle : (magnitudeUnits (s * 2 ^ 52 + 2 ^ 53) : ℚ) ≤
      magnitudeUnits (unboundedRound num den) := by
    exact_mod_cast magnitudeUnits_strictMono.monotone (by omega)
  obtain ⟨hdist, -⟩ := unboundedRound_nearest (num := num) hden (s * 2 ^ 52 + (2 ^ 53 - 1))
  generalize (num : ℚ) / den = v at *
  generalize (2 : ℚ) ^ s = t at *
  rw [abs_of_pos (by linarith)] at hdist
  obtain hside | hside := le_abs.mp hdist <;> linarith

/-- The bound of `RoundsTo` is that middle for the infinity, scaled. -/
theorem overflow_bound (n m : ℕ) :
    ((2 : ℚ) ^ (n + 54) - 2 ^ n) * 2 ^ m = (2 ^ 53 - 1 / 2) * 2 ^ (n + m + 1) := by
  rw [pow_succ, pow_add, pow_add]
  ring

/-- The rounding is finite exactly below the bound of `RoundsTo`. -/
theorem unboundedRound_finite_iff {num den : ℕ} (hden : 0 < den) :
    unboundedRound num den < 2047 * 2 ^ 52 ↔
      (num : ℚ) / den < (2 ^ 1024 - 2 ^ 970) * 2 ^ 1074 :=
  (show unboundedRound num den < 2045 * 2 ^ 52 + 2 ^ 53 ↔ _ from
    ⟨lt_middle_of_unboundedRound_lt hden, unboundedRound_lt_of_lt_middle hden⟩).trans
    (Eq.to_iff (congrArg _ (overflow_bound 970 1074).symm))

/-- The sign of a number as a factor. -/
def signFactor (negative : Bool) : ℚ := if negative then -1 else 1

/-- A finite number of a sign and a magnitude. -/
theorem finiteValue_packBits (negative : Bool) {m : ℕ} (h : m < 2 ^ 63) :
    finiteValue (packBits negative m) = signFactor negative * magnitudeUnits m / 2 ^ 1074 := by
  obtain ⟨hsign, hmagnitude⟩ := packBits_fields negative h
  rw [finiteValue, hsign, hmagnitude, signFactor]

/-- The lowest bit of a number of even magnitude is 0. -/
theorem packBits_getLsbD_zero (negative : Bool) {m : ℕ} (h : m < 2 ^ 63) (heven : m % 2 = 0) :
    (packBits negative m).getLsbD 0 = false := by
  obtain ⟨-, hmagnitude⟩ := packBits_fields negative h
  rw [BitVec.getLsbD, Nat.testBit_zero, decide_eq_false_iff_not]
  omega

section
variable {c : ℚ} (hc : 0 < c)
include hc

/-- The distance of two numbers of one sign is that of their magnitudes. -/
theorem abs_sub_same_sign (σ : Bool) (x y : ℚ) :
    |signFactor σ * x / c - signFactor σ * y / c| = |x - y| / c := by
  rw [← sub_div, ← mul_sub, abs_div, abs_mul, abs_of_pos hc]
  cases σ <;> simp [signFactor]

/-- The distance of two numbers of different signs is the sum of their magnitudes. -/
theorem abs_sub_other_sign (σ : Bool) {x y : ℚ} (hx : 0 ≤ x) (hy : 0 ≤ y) :
    |signFactor (!σ) * x / c - signFactor σ * y / c| = (x + y) / c := by
  rw [← sub_div, abs_div, abs_of_pos hc]
  congr 1
  cases σ <;>
    simp only [signFactor, Bool.not_false, Bool.not_true, if_true, Bool.false_eq_true, if_false]
  · rw [abs_of_nonpos (by linarith)]
    ring
  · rw [abs_of_nonneg (by linarith)]
    ring

/-- The magnitude of a signed number. -/
theorem abs_signed (σ : Bool) {x : ℚ} (hx : 0 ≤ x) : |signFactor σ * x / c| = x / c := by
  rw [abs_div, abs_mul, abs_of_pos hc, abs_of_nonneg hx]
  cases σ <;> simp [signFactor]

/-- No number of either sign is nearer to a signed quotient than its rounding, and one as near has
the rounding's value or leaves the rounding even: against the other sign 0 is nearer still. -/
theorem signedRound_nearest (σ τ : Bool) {num den : ℕ} (hden : 0 < den) (m : ℕ) :
    let r := signFactor σ * magnitudeUnits (unboundedRound num den) / c
    let exact := signFactor σ * ((num : ℚ) / den) / c
    let z := signFactor τ * (magnitudeUnits m : ℚ) / c
    |r - exact| ≤ |z - exact| ∧
      (|r - exact| = |z - exact| → z = r ∨ unboundedRound num den % 2 = 0) := by
  intro r exact z
  have hr : |r - exact| = |(magnitudeUnits (unboundedRound num den) : ℚ) - num / den| / c :=
    abs_sub_same_sign hc ..
  obtain rfl | hother := eq_or_ne τ σ
  · have hz : |z - exact| = |(magnitudeUnits m : ℚ) - num / den| / c := abs_sub_same_sign hc ..
    obtain ⟨hle, heq⟩ := unboundedRound_nearest (num := num) hden m
    rw [hr, hz, div_le_div_iff_of_pos_right hc, div_left_inj' hc.ne']
    exact ⟨hle, fun h => (heq h).imp_left fun hm => by simp only [z, r, hm]⟩
  · obtain rfl : τ = !σ := Bool.eq_not_of_ne hother
    have hz : |z - exact| = (magnitudeUnits m + (num : ℚ) / den) / c :=
      abs_sub_other_sign hc _ (by positivity) (by positivity)
    obtain ⟨hle, heq⟩ := unboundedRound_nearest (num := num) hden 0
    have hzero : |(magnitudeUnits 0 : ℚ) - num / den| = num / den := by
      have hquotient : 0 ≤ (num : ℚ) / den := by positivity
      simp [magnitudeUnits, abs_of_nonneg hquotient]
    have hm : 0 ≤ (magnitudeUnits m : ℚ) := by positivity
    rw [hzero] at hle heq
    rw [hr, hz, div_le_div_iff_of_pos_right hc, div_left_inj' hc.ne']
    refine ⟨by linarith, fun h => (heq (by linarith)).imp_left fun hround => ?_⟩
    have hmzero : (magnitudeUnits m : ℚ) = 0 := by linarith
    simp only [z, r, hmzero, ← hround]
    simp [magnitudeUnits]

end

/-- A sign and a rounded quotient of units: the quotient, signed, rounded to nearest even. -/
theorem roundsTo_packRounded (σ : Bool) {num den : ℕ} (hden : 0 < den) :
    RoundsTo (signFactor σ * (num / den) / 2 ^ 1074) (packRounded σ num den) := by
  have hbits := roundBits_le num den
  obtain ⟨-, hmagnitude⟩ := packBits_fields σ (m := roundBits num den) (by omega)
  have hquotient : 0 ≤ (num : ℚ) / den := by positivity
  have hc : (0 : ℚ) < 2 ^ 1074 := by positivity
  have hfinite := unboundedRound_finite_iff (num := num) hden
  rw [← div_lt_iff₀ hc] at hfinite
  rw [RoundsTo, abs_signed hc σ hquotient, packRounded]
  split
  · next hbound =>
    have hround : roundBits num den = unboundedRound num den :=
      (roundBits_eq ..).trans (min_eq_left (hfinite.mpr hbound).le)
    refine ⟨by rw [Finite64, hmagnitude, hround]; exact hfinite.mpr hbound, fun z hz => ?_⟩
    obtain ⟨hle, heq⟩ :=
      signedRound_nearest hc σ (isNegative z) (num := num) hden (z.toNat % 2 ^ 63)
    rw [finiteValue_packBits σ (by omega), hround]
    exact ⟨hle, fun h => (heq h).imp_right fun heven =>
      packBits_getLsbD_zero σ (by omega) heven⟩
  · next hbound =>
    rw [hmagnitude, roundBits_eq]
    exact min_eq_right (not_lt.mp (mt hfinite.mp hbound))

/-- The sign of a rounded number. -/
theorem isNegative_packRounded (σ : Bool) (num den : ℕ) :
    isNegative (packRounded σ num den) = σ := by
  have hbits := roundBits_le num den
  exact (packBits_fields σ (by omega)).1

end Sys2Proof.Machine

/-! SUPPORT. The four operations and the comparison on finite numbers. -/

namespace Sys2Proof.Machine

/-- The signed units of a finite number. -/
def units64 (x : Binary64) : ℤ := signedUnits (isNegative x) (magnitudeUnits (x.toNat % 2 ^ 63))

/-- A signed number of units is its sign times its magnitude. -/
theorem signedUnits_eq (σ : Bool) (u : ℕ) : (signedUnits σ u : ℚ) = signFactor σ * u := by
  cases σ <;> simp [signedUnits, signFactor]

theorem finiteValue_eq_units (x : Binary64) : finiteValue x = (units64 x : ℚ) / 2 ^ 1074 :=
  finiteValue_eq x

/-- The sum of two finite numbers is the packed rounding of their exact sum of units. -/
theorem add64_finite {x y : Binary64} (hx : Finite64 x) (hy : Finite64 y) :
    add64 x y = packRounded (if units64 x + units64 y = 0 then isNegative x && isNegative y
      else decide (units64 x + units64 y < 0)) (units64 x + units64 y).natAbs 1 := by
  simp only [add64, unpack_finite hx, unpack_finite hy]
  rfl

/-- An integer is its sign times its magnitude, whatever sign is given to 0. -/
theorem signFactor_natAbs (z : ℤ) (b : Bool) :
    signFactor (if z = 0 then b else decide (z < 0)) * (z.natAbs / (1 : ℕ)) = (z : ℚ) := by
  obtain hneg | rfl | hpos := lt_trichotomy z 0
  · rw [if_neg hneg.ne, decide_eq_true hneg, Nat.cast_natAbs, abs_of_neg hneg]
    simp [signFactor]
  · simp
  · rw [if_neg hpos.ne', decide_eq_false hpos.le.not_gt, Nat.cast_natAbs, abs_of_pos hpos]
    simp [signFactor]

/-- Addition rounds the exact sum, with its sign. -/
theorem add64_rounds {x y : Binary64} (hx : Finite64 x) (hy : Finite64 y) :
    RoundsTo (finiteValue x + finiteValue y) (add64 x y) ∧
      isNegative (add64 x y) =
        sumNegative (finiteValue x + finiteValue y) (isNegative x) (isNegative y) := by
  have hc : (0 : ℚ) < 2 ^ 1074 := by positivity
  have hsum : finiteValue x + finiteValue y = ((units64 x + units64 y : ℤ) : ℚ) / 2 ^ 1074 := by
    rw [finiteValue_eq_units, finiteValue_eq_units, ← add_div, Int.cast_add]
  rw [add64_finite hx hy, isNegative_packRounded, hsum]
  constructor
  · have hround := roundsTo_packRounded (if units64 x + units64 y = 0 then
      isNegative x && isNegative y else decide (units64 x + units64 y < 0))
      (num := (units64 x + units64 y).natAbs) one_pos
    rwa [signFactor_natAbs] at hround
  · have hzero : ((units64 x + units64 y : ℤ) : ℚ) / 2 ^ 1074 = 0 ↔ units64 x + units64 y = 0 := by
      rw [div_eq_zero_iff, or_iff_left hc.ne', Int.cast_eq_zero]
    have hneg : ((units64 x + units64 y : ℤ) : ℚ) / 2 ^ 1074 < 0 ↔ units64 x + units64 y < 0 := by
      rw [div_lt_iff₀ hc, zero_mul, Int.cast_lt_zero]
    simp only [sumNegative, hzero, hneg]

/-- The negation flips the sign and keeps the magnitude. -/
theorem negate64_fields (x : Binary64) :
    isNegative (negate64 x) = !isNegative x ∧ (negate64 x).toNat % 2 ^ 63 = x.toNat % 2 ^ 63 := by
  constructor
  · simp [isNegative, negate64]
  · have hlow : (negate64 x).extractLsb' 0 63 = x.extractLsb' 0 63 := by
      ext i hi
      have hmask : (1#64 <<< 63).getLsbD i = false := by
        rw [BitVec.getLsbD_shiftLeft, decide_eq_true hi]
        simp
      simp only [negate64, BitVec.getElem_extractLsb', BitVec.getLsbD_xor, Nat.zero_add, hmask,
        Bool.xor_false]
    simpa using congrArg BitVec.toNat hlow

/-- Subtraction rounds the exact difference, with its sign. -/
theorem sub64_rounds {x y : Binary64} (hx : Finite64 x) (hy : Finite64 y) :
    RoundsTo (finiteValue x - finiteValue y) (sub64 x y) ∧
      isNegative (sub64 x y) =
        sumNegative (finiteValue x - finiteValue y) (isNegative x) (!isNegative y) := by
  obtain ⟨hsign, hmagnitude⟩ := negate64_fields y
  have hvalue : finiteValue (negate64 y) = -finiteValue y := by
    rw [finiteValue, finiteValue, hsign, hmagnitude]
    cases isNegative y <;> simp [neg_div]
  have hneg : Finite64 (negate64 y) := by rwa [Finite64, hmagnitude]
  have hadd := add64_rounds hx hneg
  rwa [hvalue, ← sub_eq_add_neg, hsign] at hadd

/-- The sign of a product and of a quotient. -/
theorem signFactor_xor (σ τ : Bool) : signFactor (σ ^^ τ) = signFactor σ * signFactor τ := by
  cases σ <;> cases τ <;> simp [signFactor]

/-- Multiplication rounds the exact product, with its sign. -/
theorem mul64_rounds {x y : Binary64} (hx : Finite64 x) (hy : Finite64 y) :
    RoundsTo (finiteValue x * finiteValue y) (mul64 x y) ∧
      isNegative (mul64 x y) = (isNegative x ^^ isNegative y) := by
  simp only [mul64, unpack_finite hx, unpack_finite hy, isNegative_packRounded, and_true]
  have hround := roundsTo_packRounded (isNegative x ^^ isNegative y)
    (num := magnitudeUnits (x.toNat % 2 ^ 63) * magnitudeUnits (y.toNat % 2 ^ 63))
    (pow_pos two_pos 1074)
  convert hround using 1
  rw [finiteValue_eq_units, finiteValue_eq_units, units64, units64, signedUnits_eq, signedUnits_eq,
    signFactor_xor, Nat.cast_pow, Nat.cast_ofNat, Nat.cast_mul]
  generalize (2 : ℚ) ^ 1074 = c
  ring

/-- Division by a number that is not 0 rounds the exact quotient, with its sign. -/
theorem div64_rounds {x y : Binary64} (hx : Finite64 x) (hy : Finite64 y)
    (hzero : finiteValue y ≠ 0) :
    RoundsTo (finiteValue x / finiteValue y) (div64 x y) ∧
      isNegative (div64 x y) = (isNegative x ^^ isNegative y) := by
  have hunits : magnitudeUnits (y.toNat % 2 ^ 63) ≠ 0 := mt (finiteValue_eq_zero y).mpr hzero
  simp only [div64, unpack_finite hx, unpack_finite hy, if_neg hunits, isNegative_packRounded,
    and_true]
  have hround := roundsTo_packRounded (isNegative x ^^ isNegative y)
    (num := magnitudeUnits (x.toNat % 2 ^ 63) * 2 ^ 1074) (Nat.pos_of_ne_zero hunits)
  have hc : (2 : ℚ) ^ 1074 ≠ 0 := by positivity
  have hv : (magnitudeUnits (y.toNat % 2 ^ 63) : ℚ) ≠ 0 := by exact_mod_cast hunits
  convert hround using 1
  rw [finiteValue_eq_units, finiteValue_eq_units, units64, units64, signedUnits_eq, signedUnits_eq,
    signFactor_xor, div_div_div_cancel_right₀ hc, Nat.cast_mul, Nat.cast_pow, Nat.cast_ofNat]
  generalize (2 : ℚ) ^ 1074 = c at *
  cases isNegative y <;> simp only [signFactor, if_true, Bool.false_eq_true, if_false] <;>
    field_simp

/-- The comparison is that of the values. -/
theorem greater64_finite {x y : Binary64} (hx : Finite64 x) (hy : Finite64 y) :
    greater64 x y = true ↔ finiteValue y < finiteValue x := by
  have hc : (0 : ℚ) < 2 ^ 1074 := by positivity
  rw [finiteValue_eq_units, finiteValue_eq_units, div_lt_div_iff_of_pos_right hc, Int.cast_lt]
  simp only [greater64, unpack_finite hx, unpack_finite hy, decide_eq_true_eq]
  rfl

end Sys2Proof.Machine

/-! CLAIMS. The binary64 arithmetic (00_scope.md section 6). -/

namespace Sys2Proof.Machine

/-- Settles O55, operation by operation. -/
theorem binaryArithmeticRounds : Obligations.BinaryArithmeticRounds := fun _ _ hx hy =>
  ⟨add64_rounds hx hy, sub64_rounds hx hy, mul64_rounds hx hy, div64_rounds hx hy,
    greater64_finite hx hy⟩

end Sys2Proof.Machine

/-! SUPPORT. Bounds of binary64 results on numbers that are not negative: an exact result up to a
magnitude rounds to at most that magnitude (decision D14). -/

namespace Sys2Proof.Machine

/-- A number up to a finite magnitude is finite, not negative, and its own magnitude. -/
theorem nonnegative_of_le {x : Binary64} {a : ℕ} (ha : a < 2047 * 2 ^ 52) (hx : x.toNat ≤ a) :
    Finite64 x ∧ isNegative x = false ∧ x.toNat % 2 ^ 63 = x.toNat := by
  have hmod : x.toNat % 2 ^ 63 = x.toNat := Nat.mod_eq_of_lt (by omega)
  refine ⟨by rw [Finite64, hmod]; omega, ?_, hmod⟩
  rw [isNegative, BitVec.getLsbD, Nat.testBit_eq_decide_div_mod_eq, decide_eq_false_iff_not]
  omega

/-- It is taken apart into its units. -/
theorem unpack_of_le {x : Binary64} {a : ℕ} (ha : a < 2047 * 2 ^ 52) (hx : x.toNat ≤ a) :
    unpack x = .finite false (magnitudeUnits x.toNat) := by
  obtain ⟨hfinite, hsign, hmod⟩ := nonnegative_of_le ha hx
  rw [unpack_finite hfinite, hsign, hmod]

/-- Units up to a magnitude round to at most that magnitude. -/
theorem packRounded_toNat_le {num den m : ℕ} (hden : 0 < den) (h : num ≤ magnitudeUnits m * den) :
    (packRounded false num den).toNat ≤ m := by
  have hpos : (0 : ℚ) < den := by exact_mod_cast hden
  have hle : (num : ℚ) / den ≤ magnitudeUnits m := by
    rw [div_le_iff₀ hpos]
    exact_mod_cast h
  have hround : roundBits num den ≤ m :=
    (roundBits_eq num den ▸ min_le_left _ _).trans (unboundedRound_le hden hle)
  have hbits := roundBits_le num den
  obtain ⟨hsign, hmagnitude⟩ := packBits_fields false (m := roundBits num den) (by omega)
  have hlt := (packRounded false num den).isLt
  rw [isNegative, BitVec.getLsbD, Nat.testBit_eq_decide_div_mod_eq,
    decide_eq_false_iff_not] at hsign
  change (packRounded false num den).toNat % 2 ^ 63 = _ at hmagnitude
  change ¬(packRounded false num den).toNat / 2 ^ 63 % 2 = 1 at hsign
  omega

section
variable {x y : Binary64} {a b m : ℕ} (ha : a < 2047 * 2 ^ 52) (hb : b < 2047 * 2 ^ 52)
  (hx : x.toNat ≤ a) (hy : y.toNat ≤ b)
include ha hb hx hy

theorem add64_toNat_le (h : magnitudeUnits a + magnitudeUnits b ≤ magnitudeUnits m) :
    (add64 x y).toNat ≤ m := by
  have hux := magnitudeUnits_strictMono.monotone hx
  have huy := magnitudeUnits_strictMono.monotone hy
  obtain ⟨hfx, hsx, hmx⟩ := nonnegative_of_le ha hx
  obtain ⟨hfy, hsy, hmy⟩ := nonnegative_of_le hb hy
  have hunits : units64 x + units64 y =
      ((magnitudeUnits x.toNat + magnitudeUnits y.toNat : ℕ) : ℤ) := by
    rw [units64, units64, hsx, hsy, hmx, hmy]
    simp [signedUnits]
  have hsign : (if units64 x + units64 y = 0 then isNegative x && isNegative y
      else decide (units64 x + units64 y < 0)) = false := by
    rw [hunits, hsx]
    split
    · rfl
    · exact decide_eq_false (Int.natCast_nonneg _).not_gt
  rw [add64_finite hfx hfy, hsign, hunits, Int.natAbs_natCast]
  exact packRounded_toNat_le one_pos (by omega)

theorem mul64_toNat_le (h : magnitudeUnits a * magnitudeUnits b ≤ magnitudeUnits m * 2 ^ 1074) :
    (mul64 x y).toNat ≤ m := by
  have hux := magnitudeUnits_strictMono.monotone hx
  have huy := magnitudeUnits_strictMono.monotone hy
  simp only [mul64, unpack_of_le ha hx, unpack_of_le hb hy]
  exact packRounded_toNat_le (pow_pos two_pos 1074) ((Nat.mul_le_mul hux huy).trans h)

theorem not_greater64 (hab : x.toNat ≤ y.toNat) : greater64 x y = false := by
  have hunits := magnitudeUnits_strictMono.monotone hab
  simp only [greater64, unpack_of_le ha hx, unpack_of_le hb hy]
  exact decide_eq_false (Int.ofNat_le.mpr hunits).not_gt

end

/-- A quotient by a fixed number that is not 0. -/
theorem div64_toNat_le {x y : Binary64} {a m : ℕ} (ha : a < 2047 * 2 ^ 52)
    (hy : y.toNat < 2047 * 2 ^ 52) (hx : x.toNat ≤ a) (hzero : 0 < magnitudeUnits y.toNat)
    (h : magnitudeUnits a * 2 ^ 1074 ≤ magnitudeUnits m * magnitudeUnits y.toNat) :
    (div64 x y).toNat ≤ m := by
  have hux := magnitudeUnits_strictMono.monotone hx
  simp only [div64, unpack_of_le ha hx, unpack_of_le hy le_rfl, if_neg hzero.ne']
  exact packRounded_toNat_le hzero ((Nat.mul_le_mul_right _ hux).trans h)

/-- With the exact `fpow2` a level of the 16-entry table is at most 0.5. -/
theorem volume64_le_half {c : Config} (hfpow2 : c.fpow2 = exactPow2Table) {i : Fin 32}
    (hi : i.val ≤ 15) : (volume64 c i).toNat ≤ half64.toNat := by
  have htable : ∀ i : Fin 32, i.val ≤ 15 → (volume64 defaultConfig i).toNat ≤ half64.toNat := by
    decide +kernel
  have hsame : volume64 c i = volume64 defaultConfig i := by
    simp only [volume64, hfpow2]
    rfl
  exact hsame ▸ htable i hi

/-- A voice raises the sum from `a` to at most `m` if a half on top of `a` is at most `m`. -/
theorem addVoice64_toNat_le {c : Config} {table : Vector (Fin 16) 32}
    (htable : c.envLevelRule = .index table) (hfpow2 : c.fpow2 = exactPow2Table) (b : Block)
    {sum : Binary64} (k : Fin 3) {a m : ℕ} (ha : a < 2047 * 2 ^ 52) (hsum : sum.toNat ≤ a)
    (h : magnitudeUnits a + magnitudeUnits half64.toNat ≤ magnitudeUnits m) :
    (addVoice64 c b sum k).toNat ≤ m := by
  have ham : a ≤ m := magnitudeUnits_strictMono.le_iff_le.mp (by omega)
  unfold addVoice64 contribution
  by_cases hgate : gate (b.voiceAt k) b.noise = true
  · rw [if_pos hgate]
    have hindex : (levelIndex c (b.voiceAt k) b.env).val ≤ 15 :=
      levelIndex_val c _ _ ▸ volumeIndex_le htable _ _
    exact add64_toNat_le ha (by decide) hsum (volume64_le_half hfpow2 hindex) h
  · rw [if_neg hgate]
    exact hsum.trans ham

/-- Three voices sum to at most 1.5, a third of which is 0.5: it is not clipped, and scaled it is at
most 0.15. -/
theorem sample64_voiceSum64_toNat_le {c : Config} {table : Vector (Fin 16) 32}
    (htable : c.envLevelRule = .index table) (hfpow2 : c.fpow2 = exactPow2Table) (b : Block) :
    (sample64 c (voiceSum64 c b)).toNat ≤ 0x3FC3333333333333 := by
  have hA : (addVoice64 c b 0 0).toNat ≤ 0x3FE0000000000000 :=
    addVoice64_toNat_le htable hfpow2 b 0 (a := 0) (by decide) (by decide) (by decide +kernel)
  have hB : (addVoice64 c b (addVoice64 c b 0 0) 1).toNat ≤ 0x3FF0000000000000 :=
    addVoice64_toNat_le htable hfpow2 b 1 (by decide) hA (by decide +kernel)
  have hC : (voiceSum64 c b).toNat ≤ 0x3FF8000000000000 :=
    addVoice64_toNat_le htable hfpow2 b 2 (by decide) hB (by decide +kernel)
  have hmixed : (div64 (voiceSum64 c b) three64).toNat ≤ 0x3FE0000000000000 :=
    div64_toNat_le (by decide) (by decide) hC (by decide +kernel) (by decide +kernel)
  have hunclipped : greater64 (div64 (voiceSum64 c b) three64) one64 = false :=
    not_greater64 (by decide) (by decide) hmixed (le_refl one64.toNat)
      (hmixed.trans (by decide))
  rw [sample64, softClip64, hunclipped, if_neg (by decide)]
  exact mul64_toNat_le (by decide) (by decide) hmixed (le_refl threeTenths64.toNat)
    (by decide +kernel)

end Sys2Proof.Machine

/-! CLAIMS. The range of the binary64 sample (44_mixer.md section 5). -/

namespace Sys2Proof.Machine

/-- Settles O43, by the bounds of each operation of the chain. -/
theorem binarySampleRange : Obligations.BinarySampleRange := fun s _ htable hfpow2 =>
  ⟨_, _, exec_sample s, rfl, sample64_voiceSum64_toNat_le htable hfpow2 _⟩

end Sys2Proof.Machine
